-- ==== Sys2Proof/Word.lean ====
section
/-!
DEFINITION. The word types of the block (spec/00_scope.md R11): bit patterns of a fixed width. Nothing else: the
operators of R12 that a test could show wrong stand in Machine/Operands.lean.
-/

namespace Sys2Proof

/-- `u8`: one byte of the buffer (R40). -/
abbrev Byte := BitVec 8

/-- `u32`: what one varint decodes to (R100, R146, R149). -/
abbrev U32 := BitVec 32

/-- `VALUE`, the 64-bit result on the response port (R29). -/
abbrev Value := BitVec 64

/-- `CW`, the 16-bit command word (R61). -/
abbrev CommandWord := BitVec 16

/-- The bits on the argument port. `ARG` is the low `POS_W` of them (R60, R62; `POS_W` is at most 62 by R8). -/
abbrev Arg := BitVec 64

end Sys2Proof
end

