-- ==== Sys2Proof/Syntax.lean ====
section
/-!
DEFINITION. The commands: one constructor per row of spec/opcode_table.json (R63, R64). A constructor carries `ARG`
exactly where R62 gives `ARG` a meaning.
-/

namespace Sys2Proof

/-- One legal command, as Decode (R67) hands it on. -/
inductive Instr where
  /-- `open byte, ARG` (R81) -/
  | openByte (arg : Arg)
  /-- `open bita, ARG` (R81) -/
  | openBita (arg : Arg)
  /-- `open bitb, ARG` (R81) -/
  | openBitb (arg : Arg)
  /-- `getpos` (R82) -/
  | getpos
  /-- `setpos ARG` (R83) -/
  | setpos (arg : Arg)
  /-- `skip ARG` (R84) -/
  | skip (arg : Arg)
  /-- `read.uint` (R106, R150, R153) -/
  | readUint
  /-- `read.sint` (R107) -/
  | readSint
  /-- `read.bool` (R108, R151, R154) -/
  | readBool
  /-- `read.i8` (R109, R152, R155) -/
  | readI8
  /-- `read.i16` (R110) -/
  | readI16
  /-- `read.char16` (R111) -/
  | readChar16
  /-- `read.f32` (R112) -/
  | readF32
  /-- `read.f64` (R113) -/
  | readF64
  /-- `read.i64` (R114) -/
  | readI64
  /-- `peek ARG` (R85) -/
  | peek (arg : Arg)
  /-- `read.byte` (R86) -/
  | readByte
  deriving DecidableEq, Repr

end Sys2Proof
end

