-- ==== Sys2Proof/WellFormed.lean ====
section
/-!
DEFINITION. When a command is well formed: its argument is a `POS_W`-bit pattern (R60). The command words themselves
need no check: every constructor has exactly one (R63, R64).
-/

namespace Sys2Proof

/-- The argument of a command that has one (R62). -/
def Instr.arg? : Instr → Option Arg
  | .openByte a => some a
  | .openBita a => some a
  | .openBitb a => some a
  | .getpos => none
  | .setpos a => some a
  | .skip a => some a
  | .readUint => none
  | .readSint => none
  | .readBool => none
  | .readI8 => none
  | .readI16 => none
  | .readChar16 => none
  | .readF32 => none
  | .readF64 => none
  | .readI64 => none
  | .peek a => some a
  | .readByte => none

/-- The argument fits the `posW` bits of the argument port (R60, R62). -/
def Instr.wf (posW : Nat) (i : Instr) : Bool :=
  match i.arg? with
  | none => true
  | some a => a.toNat < 2 ^ posW

end Sys2Proof
end

