-- ==== Sys2Proof/Decode.lean ====
section
/-!
DEFINITION. Decoding a command word (spec/30_encoding.md R60 to R67, the checks that do not look at `MODE`; the mode
check of R66 is in Machine/Ops.lean), and the encoder written from the same tables.
-/

namespace Sys2Proof

/-- Why a command word is illegal in every mode: the first four cases of R65, in its order. -/
inductive DecodeError where
  /-- `RSV != 0` (R65.1) -/
  | reservedBits
  /-- `FUNC = 0xF` (R65.2) -/
  | reservedFunc
  /-- `open` with `MF = 3` (R65.3, R64) -/
  | openModeField
  /-- `MF != 0` on a command other than `open` (R65.4) -/
  | strayModeField
  deriving DecidableEq, Repr

/-- `CW[3:0]` (R61). -/
def funcField (cw : CommandWord) : Nat := cw.toNat % 16

/-- `CW[5:4]` (R61). -/
def modeField (cw : CommandWord) : Nat := cw.toNat / 16 % 4

/-- `CW[15:6]` (R61). -/
def rsvField (cw : CommandWord) : Nat := cw.toNat / 64

/-- The `posW` bits of the argument port (R60). -/
def argField (posW : Nat) (arg : Arg) : Arg := BitVec.ofNat 64 (arg.toNat % 2 ^ posW)

/-- The opcode map of R63, and R64 for `open`, once the checks of R67 have passed. -/
def decodeFunc (func mf : Nat) (arg : Arg) : Except DecodeError Instr :=
  match func with
  | 0x0 =>
    match mf with
    | 0 => .ok (.openByte arg)
    | 1 => .ok (.openBita arg)
    | 2 => .ok (.openBitb arg)
    | _ => .error .openModeField
  | 0x1 => .ok .getpos
  | 0x2 => .ok (.setpos arg)
  | 0x3 => .ok (.skip arg)
  | 0x4 => .ok .readUint
  | 0x5 => .ok .readSint
  | 0x6 => .ok .readBool
  | 0x7 => .ok .readI8
  | 0x8 => .ok .readI16
  | 0x9 => .ok .readChar16
  | 0xA => .ok .readF32
  | 0xB => .ok .readF64
  | 0xC => .ok .readI64
  | 0xD => .ok (.peek arg)
  | 0xE => .ok .readByte
  | _ => .error .reservedFunc

/-- `Decode(CW)` of R67, less its mode check; total, and every rejection has a name. -/
def decode (posW : Nat) (cw : CommandWord) (arg : Arg) : Except DecodeError Instr :=
  if rsvField cw ≠ 0 then .error .reservedBits
  else if funcField cw = 0xF then .error .reservedFunc
  else if funcField cw = 0x0 ∧ modeField cw = 3 then .error .openModeField
  else if funcField cw ≠ 0x0 ∧ modeField cw ≠ 0 then .error .strayModeField
  else decodeFunc (funcField cw) (modeField cw) (argField posW arg)

/-- The command word of a command, `(MF << 4) | FUNC` (R63, R64, R68). -/
def commandWord : Instr → CommandWord
  | .openByte _ => 0x0000
  | .openBita _ => 0x0010
  | .openBitb _ => 0x0020
  | .getpos => 0x0001
  | .setpos _ => 0x0002
  | .skip _ => 0x0003
  | .readUint => 0x0004
  | .readSint => 0x0005
  | .readBool => 0x0006
  | .readI8 => 0x0007
  | .readI16 => 0x0008
  | .readChar16 => 0x0009
  | .readF32 => 0x000A
  | .readF64 => 0x000B
  | .readI64 => 0x000C
  | .peek _ => 0x000D
  | .readByte => 0x000E

/-- `ARG` of a command; 0 where it has none (R68). -/
def commandArg (i : Instr) : Arg := i.arg?.getD 0

/-- The pair `(CW, ARG)` the host sends for a command (R60, R68). -/
def encode (i : Instr) : CommandWord × Arg := (commandWord i, commandArg i)

/-- The pair `(CW, ARG)` of an instruction given as one number: `CW` in bits 15..0 as spec/opcode_table.json numbers
them, `ARG` in the bits above; the bits from `nbits` up are 0. -/
def splitTableWord (nbits w : Nat) : CommandWord × Arg :=
  (BitVec.ofNat 16 (w % 2 ^ nbits), BitVec.ofNat 64 (w % 2 ^ nbits / 2 ^ 16))

/-- The instruction the decoder reads from such a number, with the default `POS_W` of 32 (R7). -/
def decodeTableWord (nbits w : Nat) : Option Instr :=
  match decode 32 (splitTableWord nbits w).1 (splitTableWord nbits w).2 with
  | .ok i => some i
  | .error _ => none

end Sys2Proof
end

