-- ==== Sys2Proof/Config.lean ====
section
/-!
DEFINITION. The implementation parameters (spec/00_scope.md R7 to R10) and the free values. A `Params` stands in every
State, so a statement about every state is a statement about every configuration. The check of R8 is `configOk` in
Machine/Ops.lean.
-/

namespace Sys2Proof

/-- `LEAD_CMP` (R7, R102): how a lead byte below `X` is compared. -/
inductive LeadCmp where
  | signed
  | unsigned
  deriving DecidableEq, Repr

/-- `SHIFT_MODE` (R7, R141): what a group shift of 32 or more does. -/
inductive ShiftMode where
  | truncate
  | mask31
  deriving DecidableEq, Repr

/-- The parameters of R7, under the spec's names. They are static (R9): no step changes them. -/
structure Params where
  /-- `X`, the exclusion threshold. OPEN in the spec. -/
  x : Nat
  /-- `L`, the window width. OPEN in the spec. -/
  l : Nat
  /-- `LG_H`, log2 of the radix per extra byte. OPEN in the spec. -/
  lgH : Nat
  /-- `POS_W`, the width of the position register and of `ARG`. -/
  posW : Nat
  /-- `BUF_LEN`, the number of bytes in the buffer's valid extent. OPEN in the spec. -/
  bufLen : Nat
  leadCmp : LeadCmp
  shiftMode : ShiftMode
  /-- `A_CONSUME_ON_NONZERO` (R144). -/
  aConsumeOnNonzero : Bool
  /-- `A_EAGER_ROLLOVER` (R144). -/
  aEagerRollover : Bool
  /-- `SETPOS_CLEARS_BITOFF` (R83, R84). -/
  setposClearsBitoff : Bool
  /-- `BP_MAX_GROUPS` (R142): `none` is no cap. -/
  bpMaxGroups : Option Nat
  deriving DecidableEq, Repr

/-- `MAX_LENGTH` (R7): fixed by the source, not a parameter. -/
def maxLength : Nat := 5

/-- The defaults of R7, for given values of the OPEN parameters. -/
def Params.ofOpen (x l lgH bufLen : Nat) : Params :=
  { x, l, lgH, bufLen, posW := 32, leadCmp := .signed, shiftMode := .truncate, aConsumeOnNonzero := true,
    aEagerRollover := true, setposClearsBitoff := false, bpMaxGroups := none }

/-- Set `REF` of R10, for a buffer of `bufLen` bytes. For vectors only: not a default of the hardware. -/
def Params.ref (bufLen : Nat) : Params := Params.ofOpen 1 191 6 bufLen

/-- Set `ILLUS` of R10, for a buffer of `bufLen` bytes. For vectors only: not a default of the hardware. -/
def Params.illus (bufLen : Nat) : Params := Params.ofOpen 1 62 6 bufLen

/-- The parameters `State.reset` holds. The OPEN ones are PRESUMED (set `REF`, the family's constants) and
`BUF_LEN` is a DESIGN CHOICE (no buffer placed): assumption 1, unsafe for a statement about `State.reset` alone. -/
def Config.resetParams : Params := Params.ref 0

/-- FREE VALUE (R156): the bits of the draw that `POS` takes after a bit-mode fault, for draw number `n`. The
register takes their low `POS_W`, read as signed, so every value of the register is admitted. Assumption 6; how two
draws relate, assumption 13. -/
opaque Config.drawPos : Nat → Arg

/-- FREE VALUE (R156): what `BITOFF` takes after a bit-mode fault, for draw number `n`. Assumption 6; how two draws
relate, assumption 13. -/
opaque Config.drawBitoff : Nat → BitVec 3

/-- FREE VALUE (R156, R190): what `CURB` takes after a bit-mode fault or a reset event, for draw number `n`.
Assumption 6; how two draws relate, assumption 13. -/
opaque Config.drawCurb : Nat → Byte

end Sys2Proof
end

