-- ==== Sys2Proof/Machine/State.lean ====
section
/-!
DEFINITION. The state of one decoder instance (spec/10_state.md R23) with what stands around it: the parameters and the
buffer (R7, R27), the host's events still to come and the responses given (R29, R60, R190, R206), and the model's own
counter of draws. Plain data.
-/

namespace Sys2Proof.Machine

/-- `MODE` (R23, R64). The value 3 is never held, so it has no constructor. -/
inductive Mode where
  | byte
  | bita
  | bitb
  deriving DecidableEq, Repr

/-- The two bits of `MODE` (R23). -/
def Mode.bits : Mode → BitVec 2
  | .byte => 0
  | .bita => 1
  | .bitb => 2

/-- `STATUS` of a response (R29). -/
inductive Status where
  | ok
  | fault
  deriving DecidableEq, Repr

/-- One response (R29). `value = none` is an absent `VALUE`, which is not zero. -/
structure Response where
  status : Status
  cause : BitVec 4
  value : Option Value
  deriving DecidableEq, Repr

/-- What the host sends to the instance between responses (R60, R190, R193). -/
inductive HostEvent where
  /-- a command `(CW, ARG)` (R60) -/
  | command (cw : CommandWord) (arg : Arg)
  /-- the reset event (R190) -/
  | reset
  deriving DecidableEq, Repr

/-- Reasons the MODEL stops with a fault. The block's own faults (R170) are no stops: they are taken as a next state
(`takeFault`), and the block has no stuck state (R204). -/
inductive Fault where
  /-- Raised by the group loops of `UVarA` and `UVarB` (R146, R149) if they used up the step budget that makes them
  structurally recursive. R142 says the loop always ends, and the budget is chosen so that this is never raised (an
  obligation). Safe: the model would stop where the block goes on. -/
  | groupBudgetSpent
  deriving DecidableEq, Repr

/-- Reasons the MODEL refuses a step. -/
inductive Refusal where
  /-- Raised by an arm of `exec` whose instruction has no meaning yet (no arm is so now). Safe. -/
  | notModelled (mnemonic : String)
  /-- Raised by `step` at a state whose parameters break R8: "the model has no meaning for it". Safe. -/
  | badConfiguration
  deriving DecidableEq, Repr

/-- One decoder instance, its configuration, its buffer and its ports. -/
structure State where
  /-- the parameters of R7, static (R9) -/
  params : Params
  /-- `BUF` (R27, R40), one byte a cell, in the canonical form of `memoryWf`; never written (R42) -/
  buf : List Host.Cell
  /-- `MODE` -/
  mode : Mode
  /-- `POS`, the value of the `POS_W`-bit two's-complement register (R24); `State.Inv` keeps it in range -/
  pos : Int
  /-- `BITOFF` (R25) -/
  bitoff : BitVec 3
  /-- `CURB` (R26) -/
  curb : Byte
  /-- `CURV` (R26) -/
  curv : Bool
  /-- `FLT` (R28) -/
  flt : Bool
  /-- `FCAUSE` (R28, R170) -/
  fcause : BitVec 4
  /-- `FINFO` (R28, R170) -/
  finfo : BitVec 64
  /-- the host's events not yet taken, in the order it sends them (R60, R190, R193) -/
  inbox : List HostEvent
  /-- the responses given, oldest first (R29, R206) -/
  responses : List Response
  /-- the model's own: how many draws have been taken (R156, R190) -/
  draws : Nat
  deriving DecidableEq, Repr

/-- Right after reset (R32, R190): nothing placed in the buffer, no event pending, no response given. `curb` is
unspecified in the spec and 0 here (DESIGN CHOICE, assumption 5); `params` is assumption 1. -/
def State.reset : State :=
  { params := Config.resetParams, buf := [], mode := .byte, pos := 0, bitoff := 0, curb := 0, curv := false,
    flt := false, fcause := 0, finfo := 0, inbox := [], responses := [], draws := 0 }

/-! The updates the rules make, one for each thing they write. -/

/-- `POS <- p` -/
def State.setPos (s : State) (p : Int) : State := { s with pos := p }

/-- `BITOFF <- b` -/
def State.setBitoff (s : State) (b : BitVec 3) : State := { s with bitoff := b }

/-- `CURB <- b; CURV <- 1` -/
def State.loadCache (s : State) (b : Byte) : State := { s with curb := b, curv := true }

/-- `CURV <- 0` -/
def State.dropCache (s : State) : State := { s with curv := false }

/-- `MODE <- m` -/
def State.setMode (s : State) (m : Mode) : State := { s with mode := m }

/-- the fault register, written whole -/
def State.setFault (s : State) (flt : Bool) (fcause : BitVec 4) (finfo : BitVec 64) : State :=
  { s with flt := flt, fcause := fcause, finfo := finfo }

/-- one more response on the response port -/
def State.pushResponse (s : State) (r : Response) : State := { s with responses := s.responses ++ [r] }

/-- the events still to come -/
def State.setInbox (s : State) (es : List HostEvent) : State := { s with inbox := es }

/-- `CURB <- b`, leaving `CURV` -/
def State.setCurb (s : State) (b : Byte) : State := { s with curb := b }

/-- one more draw taken -/
def State.countDraw (s : State) : State := { s with draws := s.draws + 1 }

end Sys2Proof.Machine
end

