-- ==== Sys2Proof/Machine/Flags.lean ====
section
/-!
DEFINITION. The block has no condition codes (spec/10_state.md R22); its one flag is the fault register (R28). This
file holds the causes (spec/60_exceptions.md R170) and how the register records the first fault.
-/

namespace Sys2Proof.Machine

/-- The three synchronous faults of R170, with what they carry. -/
inductive Raise where
  /-- `OutOfRange(idx)`: `idx` is the exact index that failed (R41) -/
  | outOfRange (idx : Int)
  /-- `IllegalCommand(CW)` (R65) -/
  | illegalCommand (cw : CommandWord)
  /-- `PositionOverflow(ARG)`: the signed argument (R84) -/
  | positionOverflow (arg : Int)
  deriving DecidableEq, Repr

/-- `code(E)` (R170). -/
def raiseCode : Raise → BitVec 4
  | .outOfRange _ => 1
  | .illegalCommand _ => 2
  | .positionOverflow _ => 3

/-- What `FINFO` records (R28, R170): `sext_64(idx)`, `zext_64(CW)` or `sext_64(ARG)`. -/
def raiseInfo : Raise → BitVec 64
  | .outOfRange idx => BitVec.ofInt 64 idx
  | .illegalCommand cw => cw.setWidth 64
  | .positionOverflow arg => BitVec.ofInt 64 arg

/-- The fault register keeps the first fault since reset (R28, R171). -/
def recordFault (e : Raise) (s : State) : State :=
  if s.flt then s else s.setFault true (raiseCode e) (raiseInfo e)

end Sys2Proof.Machine
end

