-- ==== Sys2Proof/Machine/Operands.lean ====
section
/-!
DEFINITION. The operators of spec/00_scope.md R12 that the commands need, the reading of `ARG` (R62), and the value
transforms: `LeadFinal` (R102), `decodeSign` (R104), `rev32` (R105), `shl32` (R141), and the logical-byte merge
(R145, R148).
-/

namespace Sys2Proof.Machine

/-- `as_signed_n(trunc_n(v))` (R12). -/
def asSigned (n v : Nat) : Int :=
  if v % 2 ^ n < 2 ^ (n - 1) then (v % 2 ^ n : Nat) else (v % 2 ^ n : Nat) - (2 : Int) ^ n

/-- The least value of the `POS` register (R23). -/
def posMin (p : Params) : Int := -2 ^ (p.posW - 1)

/-- The greatest value of the `POS` register (R23). -/
def posMax (p : Params) : Int := 2 ^ (p.posW - 1) - 1

/-- `as_signed_POS_W(ARG)` (R62). -/
def argValue (p : Params) (arg : Arg) : Int := asSigned p.posW arg.toNat

/-- `LeadFinal(sum)` (R102); `sum` is the exact `b0 - X`. -/
def leadFinal (p : Params) (sum : Int) : Bool :=
  match p.leadCmp with
  | .signed => sum < (p.l : Int)
  | .unsigned => (BitVec.ofInt 32 sum).toNat < p.l

/-- `decodeSign(u)` (R104), in exact integers. -/
def decodeSign (u : U32) : Int :=
  if u.toNat % 2 = 0 then (u.toNat / 2 : Nat) else -((u.toNat + 1) / 2 : Nat)

/-- The low `n` bits of `v`, least significant first, put behind `acc`. -/
def reverseBits : (n : Nat) → (v : Nat) → (acc : Nat) → Nat
  | 0, _, acc => acc
  | n + 1, v, acc => reverseBits n (v / 2) (2 * acc + v % 2)

/-- `rev32(v)` (R12, R105): bit `i` is bit `31 - i` of `v`. -/
def rev32 (v : U32) : U32 := BitVec.ofNat 32 (reverseBits 32 v.toNat 0)

/-- `shl32(v, k)` (R141). -/
def shl32 (p : Params) (v : Byte) (k : Nat) : U32 :=
  match p.shiftMode with
  | .truncate => BitVec.ofNat 32 (v.toNat <<< k)
  | .mask31 => BitVec.ofNat 32 (v.toNat <<< (k % 32))

/-- The merge of R145 and R148: the low `8 - off` bits of `c`, then the top `off` bits of `n`. -/
def mergeBytes (c n : Byte) (off : BitVec 3) : Byte :=
  BitVec.ofNat 8 ((c.toNat <<< off.toNat) ||| (n.toNat >>> (8 - off.toNat)))

/-- The bit a zero test looks at, `c[7 - BITOFF]` (R45, R144, R147). -/
def markerBit (c : Byte) (off : BitVec 3) : Bool := c.getLsbD (7 - off.toNat)

/-- The continuation test of group `g` (R146, R149): bit `0x40` of group 0, bit `0x80` of the others. -/
def continues (g : Nat) (b : Byte) : Bool := if g = 0 then b.getLsbD 6 else b.getLsbD 7

/-! How a result is widened to the 64 bits of `VALUE` (R29; the rule of each command). -/

/-- `zext_64` of a 32-bit result (R106, R112, R150, R153). -/
def valueOfUint (u : U32) : Value := u.setWidth 64

/-- `sext_64` of an exact integer (R82, R107). -/
def valueOfInt (v : Int) : Value := BitVec.ofInt 64 v

/-- 1 if nonzero, else 0 (R108, R151, R154). -/
def valueOfBool (u : U32) : Value := if u ≠ 0 then 1 else 0

/-- `sext_64(as_signed_8(trunc_8(u)))` (R109, R152, R155). -/
def valueOfI8 (u : U32) : Value := (u.setWidth 8).signExtend 64

/-- `sext_64(as_signed_16(trunc_16(decodeSign(u))))` (R110). -/
def valueOfI16 (u : U32) : Value := (BitVec.ofInt 16 (decodeSign u)).signExtend 64

/-- `zext_64(trunc_16(u))` (R111). -/
def valueOfChar16 (u : U32) : Value := (u.setWidth 16).setWidth 64

/-- `rev32(rh) ++ rev32(rl)` (R113). -/
def valueOfF64 (rh rl : U32) : Value := rev32 rh ++ rev32 rl

/-- `trunc_32(hi) ++ trunc_32(lo)` of the two sign-decoded varints, the low one read first (R114). -/
def valueOfI64 (first second : U32) : Value :=
  BitVec.ofInt 32 (decodeSign second) ++ BitVec.ofInt 32 (decodeSign first)

end Sys2Proof.Machine
end

