-- ==== Sys2Proof/Machine/Ops.lean ====
section
/-!
DEFINITION. The shared operations: the buffer and its read port (spec/20_memory.md R40 to R42), the configuration check
(R8), mode admission (R66), responding and taking a fault (R29, R171), the reset event (R190), the draws (R156), and
the three steps every command runs in (R80). There is no return from a fault to model (R173, R178).
-/

namespace Sys2Proof.Machine

/-! ## The buffer -/

/-- Bytes at indexes, in canonical form: indexes strictly rising, no entry equal to `unlistedByte`. -/
abbrev Memory := List Host.Cell

/-- What an index with no cell reads as (DESIGN CHOICE, assumption 2): only how a buffer is written down, since a
buffer may hold any byte at any index. -/
def unlistedByte : Byte := 0

/-- The byte at an index. -/
def Memory.read : Memory → Nat → Byte
  | [], _ => unlistedByte
  | (k, b) :: rest, a => if k = a then b else Memory.read rest a

/-- Put one byte, keeping the canonical form. No command does this (R42); the host does, before boot (R192). -/
def Memory.write : Memory → Nat → Byte → Memory
  | [], a, b => if b = unlistedByte then [] else [(a, b)]
  | (k, c) :: rest, a, b =>
    if a < k then (if b = unlistedByte then (k, c) :: rest else (a, b) :: (k, c) :: rest)
    else if a = k then (if b = unlistedByte then rest else (a, b) :: rest)
    else (k, c) :: Memory.write rest a b

/-- Put a sequence of bytes from an index on. -/
def Memory.place : Memory → Nat → List Byte → Memory
  | m, _, [] => m
  | m, a, b :: bs => Memory.place (m.write a b) (a + 1) bs

/-- The canonical form. -/
abbrev Memory.wf (m : Memory) : Prop :=
  m.Pairwise (fun c d => c.1 < d.1) ∧ ∀ c ∈ m, c.2 ≠ unlistedByte

/-- The host's setting up of the buffer before boot (R192.2, R193): `bytes` at indexes 0 up, and `BUF_LEN` their
number. -/
def State.withBuffer (s : State) (bytes : List Byte) : State :=
  { s with params := { s.params with bufLen := bytes.length }, buf := Memory.place [] 0 bytes }

/-- `BUF[idx]`, where `idx` is in the valid extent (R40, R41). -/
def bufByte (s : State) (idx : Int) : Option Byte :=
  if 0 ≤ idx ∧ idx < (s.params.bufLen : Int) then some (Memory.read s.buf idx.toNat) else none

/-! ## Running a command's pseudocode -/

/-- How a piece of a command's pseudocode ends (R13): with a value, with a `raise`, or (`stuck`) with the model's own
step budget spent. In each case with the state so far, since writes before a `raise` stay (R171). -/
inductive Reply (α : Type) where
  | value (a : α) (s : State)
  | raised (e : Raise) (s : State)
  | stuck (f : Fault)
  deriving DecidableEq, Repr

/-- Go on with the value; a `raise` ends the command (R13, R171). -/
def Reply.andThen {α β : Type} (r : Reply α) (k : α → State → Reply β) : Reply β :=
  match r with
  | .value a s => k a s
  | .raised e s => .raised e s
  | .stuck f => .stuck f

/-- `MemRead(idx, 1)` (R41); `idx` is exact and never wrapped. -/
def memRead (idx : Int) (s : State) : Reply Byte :=
  match bufByte s idx with
  | some b => .value b s
  | none => .raised (.outOfRange idx) s

/-! ## Responding and faulting -/

/-- The response to a command that succeeds (R29). -/
def respondOk (v : Option Value) (s : State) : State :=
  s.pushResponse { status := .ok, cause := 0, value := v }

/-- TAKING A FAULT, `Fault(E, info)` of R171: the first one is recorded, and the response carries the cause and no
value. Nothing else changes. -/
def takeFault (e : Raise) (s : State) : State :=
  (recordFault e s).pushResponse { status := .fault, cause := raiseCode e, value := none }

/-- The end of a command (R80.3). -/
def finish (r : Reply (Option Value)) : Host.Outcome State Fault Refusal :=
  match r with
  | .value v s => .next (respondOk v s)
  | .raised e s => .next (takeFault e s)
  | .stuck f => .fault f

/-! ## Admission -/

/-- Mode admission (R66): the seven commands of the byte codec alone. -/
def byteOnly : Instr → Bool
  | .openByte _ => false
  | .openBita _ => false
  | .openBitb _ => false
  | .getpos => false
  | .setpos _ => false
  | .skip _ => false
  | .readUint => false
  | .readSint => true
  | .readBool => false
  | .readI8 => false
  | .readI16 => true
  | .readChar16 => true
  | .readF32 => true
  | .readF64 => true
  | .readI64 => true
  | .peek _ => false
  | .readByte => true

/-- Whether a mode admits a command (R66, R67). -/
def admits (m : Mode) (i : Instr) : Bool := decide (m = .byte) || !byteOnly i

/-- The three steps of a command (R80): the mode check that ends `Decode` (R67), the pseudocode, the response. -/
def runCommand (i : Instr) (s : State) (body : State → Reply (Option Value)) : Host.Outcome State Fault Refusal :=
  if admits s.mode i then finish (body s) else .next (takeFault (.illegalCommand (commandWord i)) s)

/-! ## Configuration, reset, draws -/

/-- The constraints of R8 (and R142 for a cap). -/
def configOk (p : Params) : Bool :=
  decide (p.x ≤ 255 ∧ 1 ≤ p.l ∧ p.l ≤ 256 - p.x ∧ 1 ≤ p.lgH ∧ p.lgH ≤ 7 ∧ 2 ≤ p.posW ∧ p.posW ≤ 62 ∧
    p.bufLen ≤ 2 ^ (p.posW - 1) - 1 ∧ p.bpMaxGroups ≠ some 0)

/-- The reset event (R190): every register as R32 says, `CURB` a draw (how draws
relate: assumption 13). Parameters, buffer, ports unchanged. -/
def resetEvent (s : State) : State :=
  (((((((s.setMode .byte).setPos 0).setBitoff 0).setCurb (Config.drawCurb s.draws)).dropCache).setFault false 0
    0).countDraw)

/-- The state a bit-mode read leaves when it raises `OutOfRange` (R156): `POS`, `BITOFF`, `CURB` are draws, `CURV` is 0.
The draw of `POS` is any value of the register. DESIGN CHOICE (assumption 13, unsafe): a draw depends on this
instance's count `draws` alone, so two instances, or two runs, with equal counts draw the same values; R156's draws are
under no law. -/
def drawCursor (s : State) : State :=
  (((((s.setPos (argValue s.params (Config.drawPos s.draws))).setBitoff (Config.drawBitoff s.draws)).setCurb
    (Config.drawCurb s.draws)).dropCache).countDraw)

/-- A bit-mode read whose `raise` leaves the state of R156. -/
def drawOnRaise {α : Type} (r : Reply α) : Reply α :=
  match r with
  | .value a s => .value a s
  | .raised e s => .raised e (drawCursor s)
  | .stuck f => .stuck f

end Sys2Proof.Machine
end

