-- ==== Sys2Proof/Machine/Cursor.lean ====
section
/-!
DEFINITION. The commands of byte_cursor_controller (spec/40_byte_cursor.md R81 to R86).
-/

namespace Sys2Proof.Machine

/-- The pseudocode of `open` (R81). -/
def openAs (m : Mode) (arg : Arg) (s : State) : Reply (Option Value) :=
  .value none ((((s.setMode m).setPos (argValue s.params arg)).setBitoff 0).dropCache)

/-- What `setpos` and `skip` do once the new position is known (R83, R84). -/
def seek (p : Int) (s : State) : State :=
  if s.params.setposClearsBitoff then ((s.setPos p).dropCache).setBitoff 0 else (s.setPos p).dropCache

/-- The pseudocode of `skip` (R84). -/
def skipBy (n : Int) (s : State) : Reply (Option Value) :=
  if s.pos + n < posMin s.params ∨ posMax s.params < s.pos + n then .raised (.positionOverflow n) s
  else .value none (seek (s.pos + n) s)

/-- `open byte, ARG` (R81) -/
def execOpenByte (arg : Arg) (s : State) : Host.Outcome State Fault Refusal :=
  runCommand (.openByte arg) s (openAs .byte arg)

/-- `open bita, ARG` (R81) -/
def execOpenBita (arg : Arg) (s : State) : Host.Outcome State Fault Refusal :=
  runCommand (.openBita arg) s (openAs .bita arg)

/-- `open bitb, ARG` (R81) -/
def execOpenBitb (arg : Arg) (s : State) : Host.Outcome State Fault Refusal :=
  runCommand (.openBitb arg) s (openAs .bitb arg)

/-- `getpos` (R82) -/
def execGetpos (s : State) : Host.Outcome State Fault Refusal :=
  runCommand .getpos s fun s => .value (some (valueOfInt s.pos)) s

/-- `setpos ARG` (R83) -/
def execSetpos (arg : Arg) (s : State) : Host.Outcome State Fault Refusal :=
  runCommand (.setpos arg) s fun s => .value none (seek (argValue s.params arg) s)

/-- `skip ARG` (R84) -/
def execSkip (arg : Arg) (s : State) : Host.Outcome State Fault Refusal :=
  runCommand (.skip arg) s fun s => skipBy (argValue s.params arg) s

/-- `peek ARG` (R85) -/
def execPeek (arg : Arg) (s : State) : Host.Outcome State Fault Refusal :=
  runCommand (.peek arg) s fun s =>
    (memRead (argValue s.params arg) s).andThen fun b s => .value (some (b.setWidth 64)) s

/-- `read.byte` (R86) -/
def execReadByte (s : State) : Host.Outcome State Fault Refusal :=
  runCommand .readByte s fun s =>
    (memRead s.pos s).andThen fun b s => .value (some (b.setWidth 64)) (s.setPos (s.pos + 1))

end Sys2Proof.Machine
end

