-- ==== Sys2Proof/Machine/BitPacked.lean ====
section
/-!
DEFINITION. The bit-packed decoders (spec/42_bit_packed.md R140 to R149), variant A and variant B, each in full: "neither
is derived from the other".
-/

namespace Sys2Proof.Machine

/-- How many groups a loop may take. Every logical byte advances `POS` by 1, so R142's bound `BUF_LEN - p + 1` is
never passed. -/
def groupBudget (s : State) : Nat := ((s.params.bufLen : Int) - s.pos).toNat + 2

/-! ## Variant A -/

/-- `CurA()` (R143): byte `POS`, through the cache. -/
def curA (s : State) : Reply Byte :=
  if s.curv then .value s.curb s
  else (memRead s.pos s).andThen fun b s => .value b (s.loadCache b)

/-- The rollover of `IsZeroA` (R144): `BITOFF` has reached 8. -/
def rolloverA (s : State) : Reply Unit :=
  let s := (s.setBitoff 0).setPos (s.pos + 1)
  if s.params.aEagerRollover then (memRead s.pos s).andThen fun b s => .value () (s.loadCache b)
  else .value () s.dropCache

/-- `IsZeroA()` (R144). -/
def isZeroA (s : State) : Reply Bool :=
  (curA s).andThen fun c s =>
    let t := markerBit c s.bitoff
    if t ∧ ¬ s.params.aConsumeOnNonzero then .value false s
    else if s.bitoff.toNat + 1 = 8 then (rolloverA s).andThen fun _ s => .value (!t) s
    else .value (!t) (s.setBitoff (s.bitoff + 1))

/-- `RawByteA()` (R145). -/
def rawByteA (s : State) : Reply Byte :=
  (curA s).andThen fun c s =>
    if s.bitoff = 0 then .value c (s.setPos (s.pos + 1)).dropCache
    else (memRead (s.pos + 1) s).andThen fun n s =>
      .value (mergeBytes c n s.bitoff) ((s.setPos (s.pos + 1)).loadCache n)

/-- The loop of `UVarA` (R146) at group `g`. -/
def uVarALoop : (budget : Nat) → (g : Nat) → (result : U32) → State → Reply U32
  | 0, _, _, _ => .stuck .groupBudgetSpent
  | budget + 1, g, result, s =>
    (rawByteA s).andThen fun b s =>
      let result' := result ||| shl32 s.params (b &&& 0x3F) (6 * g)
      if !continues g b ∨ s.params.bpMaxGroups = some (g + 1) then .value result' s
      else uVarALoop budget (g + 1) result' s

/-- `UVarA()` (R146). -/
def uVarA (s : State) : Reply U32 :=
  (isZeroA s).andThen fun zero s =>
    if zero then .value 0 s else uVarALoop (groupBudget s) 0 0 s

/-! ## Variant B -/

/-- `IsZeroB()` (R147). -/
def isZeroB (s : State) : Reply Bool :=
  (memRead s.pos s).andThen fun c s =>
    if markerBit c s.bitoff then .value false s
    else if s.bitoff.toNat + 1 = 8 then .value true ((s.setBitoff 0).setPos (s.pos + 1))
    else .value true (s.setBitoff (s.bitoff + 1))

/-- `RawByteB()` (R148). -/
def rawByteB (s : State) : Reply Byte :=
  if s.bitoff = 0 then
    (memRead s.pos s).andThen fun b s => .value b (s.setPos (s.pos + 1))
  else
    (memRead s.pos s).andThen fun c s =>
      (memRead (s.pos + 1) s).andThen fun n s =>
        .value (mergeBytes c n s.bitoff) (s.setPos (s.pos + 1))

/-- The loop of `UVarB` (R149): `b` is the logical byte of group `i`, already in `result`. -/
def uVarBLoop : (budget : Nat) → (i : Nat) → (b : Byte) → (result : U32) → State → Reply U32
  | budget, i, b, result, s =>
    if !continues i b ∨ s.params.bpMaxGroups = some (i + 1) then .value result s
    else
      match budget with
      | 0 => .stuck .groupBudgetSpent
      | budget + 1 =>
        (rawByteB s).andThen fun b s =>
          uVarBLoop budget (i + 1) b (result ||| shl32 s.params (b &&& 0x7F) (6 + 7 * i)) s

/-- `UVarB()` (R149). -/
def uVarB (s : State) : Reply U32 :=
  (isZeroB s).andThen fun zero s =>
    if zero then .value 0 s
    else (rawByteB s).andThen fun b s =>
      uVarBLoop (groupBudget s) 0 b ((b &&& 0x3F).setWidth 32) s

end Sys2Proof.Machine
end

