-- ==== Sys2Proof/Machine/Varint.lean ====
section
/-!
DEFINITION. The UNSIGNED5-style decode `U5` (spec/41_varint_codec.md R100 to R103).
-/

namespace Sys2Proof.Machine

/-- The loop of R100 from `i = MAX_LENGTH - 1 - left` on, with the running sum; `left = 0` is the last byte the cap
allows. -/
def u5Loop : (left : Nat) → (p : Int) → (sum : U32) → State → Reply U32
  | left, p, sum, s =>
    (memRead (p + (maxLength - 1 - left : Nat)) s).andThen fun b s =>
      if b.toNat < s.params.x then .value sum (s.setPos (p + (maxLength - 1 - left : Nat)))
      else
        let sum' : U32 :=
          BitVec.ofNat 32 (sum.toNat + (b.toNat - s.params.x) <<< (s.params.lgH * (maxLength - 1 - left)))
        match left with
        | 0 => .value sum' (s.setPos (p + (maxLength - 1 : Nat) + 1))
        | left' + 1 =>
          if b.toNat < s.params.x + s.params.l then
            .value sum' (s.setPos (p + (maxLength - 1 - (left' + 1) : Nat) + 1))
          else u5Loop left' p sum' s

/-- `U5()` (R100): one varint at `POS`. `POS` is written on the return paths only (R101). -/
def u5 (s : State) : Reply U32 :=
  (memRead s.pos s).andThen fun b0 s =>
    if leadFinal s.params ((b0.toNat : Int) - s.params.x) then
      .value (BitVec.ofInt 32 ((b0.toNat : Int) - s.params.x)) (s.setPos (s.pos + 1))
    else u5Loop (maxLength - 2) s.pos (BitVec.ofInt 32 ((b0.toNat : Int) - s.params.x)) s

end Sys2Proof.Machine
end

