-- ==== Sys2Proof/Machine/Reads.lean ====
section
/-!
DEFINITION. The read commands: in `BYTE` mode spec/41_varint_codec.md R106 to R114, in `BITA` and `BITB`
spec/42_bit_packed.md R150 to R155 with the fault state of R156.
-/

namespace Sys2Proof.Machine

/-- The unsigned varint of the current mode (R63): `U5`, `UVarA` or `UVarB`. -/
def readVarint (s : State) : Reply U32 :=
  match s.mode with
  | .byte => u5 s
  | .bita => drawOnRaise (uVarA s)
  | .bitb => drawOnRaise (uVarB s)

/-- A read of one varint, its result widened by `f`. -/
def readOne (f : U32 → Value) (s : State) : Reply (Option Value) :=
  (readVarint s).andThen fun u s => .value (some (f u)) s

/-- A read of two varints in a row (R113, R114). A fault in the second leaves the first one's `POS` (R115). -/
def readTwo (f : U32 → U32 → Value) (s : State) : Reply (Option Value) :=
  (readVarint s).andThen fun u s => (readVarint s).andThen fun v s => .value (some (f u v)) s

/-- `read.uint` (R106, R150, R153) -/
def execReadUint (s : State) : Host.Outcome State Fault Refusal :=
  runCommand .readUint s (readOne valueOfUint)

/-- `read.sint` (R107) -/
def execReadSint (s : State) : Host.Outcome State Fault Refusal :=
  runCommand .readSint s (readOne fun u => valueOfInt (decodeSign u))

/-- `read.bool` (R108, R151, R154) -/
def execReadBool (s : State) : Host.Outcome State Fault Refusal :=
  runCommand .readBool s (readOne valueOfBool)

/-- `read.i8` (R109, R152, R155) -/
def execReadI8 (s : State) : Host.Outcome State Fault Refusal :=
  runCommand .readI8 s (readOne valueOfI8)

/-- `read.i16` (R110) -/
def execReadI16 (s : State) : Host.Outcome State Fault Refusal :=
  runCommand .readI16 s (readOne valueOfI16)

/-- `read.char16` (R111) -/
def execReadChar16 (s : State) : Host.Outcome State Fault Refusal :=
  runCommand .readChar16 s (readOne valueOfChar16)

/-- `read.f32` (R112) -/
def execReadF32 (s : State) : Host.Outcome State Fault Refusal :=
  runCommand .readF32 s (readOne fun u => valueOfUint (rev32 u))

/-- `read.f64` (R113): the high half first -/
def execReadF64 (s : State) : Host.Outcome State Fault Refusal :=
  runCommand .readF64 s (readTwo valueOfF64)

/-- `read.i64` (R114): the low half first -/
def execReadI64 (s : State) : Host.Outcome State Fault Refusal :=
  runCommand .readI64 s (readTwo valueOfI64)

end Sys2Proof.Machine
end

