-- ==== Sys2Proof/Machine/Dispatch.lean ====
section
/-! DEFINITION. One arm per command of spec/opcode_table.json: each calls its meaning. -/

namespace Sys2Proof.Machine

/-- The meaning of a command (R80), by constructor. -/
def exec (i : Instr) (s : State) : Host.Outcome State Fault Refusal :=
  match i with
  | .openByte arg => Sys2Proof.Machine.execOpenByte arg s
  | .openBita arg => Sys2Proof.Machine.execOpenBita arg s
  | .openBitb arg => Sys2Proof.Machine.execOpenBitb arg s
  | .getpos => Sys2Proof.Machine.execGetpos s
  | .setpos arg => Sys2Proof.Machine.execSetpos arg s
  | .skip arg => Sys2Proof.Machine.execSkip arg s
  | .readUint => Sys2Proof.Machine.execReadUint s
  | .readSint => Sys2Proof.Machine.execReadSint s
  | .readBool => Sys2Proof.Machine.execReadBool s
  | .readI8 => Sys2Proof.Machine.execReadI8 s
  | .readI16 => Sys2Proof.Machine.execReadI16 s
  | .readChar16 => Sys2Proof.Machine.execReadChar16 s
  | .readF32 => Sys2Proof.Machine.execReadF32 s
  | .readF64 => Sys2Proof.Machine.execReadF64 s
  | .readI64 => Sys2Proof.Machine.execReadI64 s
  | .peek arg => Sys2Proof.Machine.execPeek arg s
  | .readByte => Sys2Proof.Machine.execReadByte s

end Sys2Proof.Machine
end

