-- ==== Sys2Proof/Machine/Fetch.lean ====
section
/-!
DEFINITION. Taking the host's next event from the command port (spec/30_encoding.md R60,
spec/70_reset_and_hazards.md R190 to R193). The block fetches nothing itself (R21).
-/

namespace Sys2Proof.Machine

/-- What the instance finds to do. -/
inductive Fetched where
  /-- the configuration breaks R8 -/
  | badConfiguration
  /-- no event: the instance waits (R191) -/
  | waiting
  /-- a reset event, taken off the port in `s` (R190) -/
  | resetTaken (s : State)
  /-- a command word illegal in every mode (R65.1 to R65.4), taken off the port in `s` -/
  | illegal (cw : CommandWord) (s : State)
  /-- a command, taken off the port in `s` -/
  | command (i : Instr) (s : State)
  deriving DecidableEq, Repr

/-- The next event, decoded (R60, R67). -/
def fetch (s : State) : Fetched :=
  if configOk s.params then
    match s.inbox with
    | [] => .waiting
    | .reset :: rest => .resetTaken (s.setInbox rest)
    | .command cw arg :: rest =>
      match decode s.params.posW cw arg with
      | .ok i => .command i (s.setInbox rest)
      | .error _ => .illegal cw (s.setInbox rest)
  else .badConfiguration

/-- Put an event at the front of the command port, to be taken by the very next step. -/
def State.withNextEvent (s : State) (e : HostEvent) : State := s.setInbox (e :: s.inbox)

end Sys2Proof.Machine
end

