-- ==== Sys2Proof/Machine/Step.lean ====
section
/-!
DEFINITION. One step: the instance takes the host's next event (R60, R190), or waits (R191).
-/

namespace Sys2Proof.Machine

/-- One event, whole (R14, R205). A command that `Decode` rejects faults with no other effect (R67). -/
def step (s : State) : Host.Outcome State Fault Refusal :=
  match fetch s with
  | .badConfiguration => .refused .badConfiguration
  | .waiting => .next s
  | .resetTaken s' => .next (resetEvent s')
  | .illegal cw s' => .next (takeFault (.illegalCommand cw) s')
  | .command i s' => exec i s'

/-- `s` with the command given as one number (`CW` in bits 15..0, `ARG` above) next on the command port. -/
def State.withFetchWord (s : State) (nbits w : Nat) : State :=
  s.withNextEvent (.command (splitTableWord nbits w).1 (splitTableWord nbits w).2)

end Sys2Proof.Machine
end

