-- ==== Sys2Proof/Machine/System.lean ====
section
/-!
DEFINITION. Several decoder instances side by side (spec/60_exceptions.md R180, spec/20_memory.md R53): each has its own
registers and ports, and they share the parameters and the buffer, which no command writes. Any order of steps at
different instances is allowed (R180), so `stepAt` takes the index of the instance that moves. DESIGN CHOICE: instances
with equal counts `draws` draw the same values after a bit-mode fault or a reset event (assumption 13, unsafe).
-/

namespace Sys2Proof.Machine

/-- The instances of one system, each a whole `State`. The spec gives them no identifiers: the index is the model's. -/
structure System where
  units : List State
  deriving DecidableEq, Repr

/-- One parameter set and one buffer for all (R9, R53, R180). -/
def System.Shared (y : System) : Prop :=
  ∀ s ∈ y.units, ∀ t ∈ y.units, s.params = t.params ∧ s.buf = t.buf

/-- Instance `k` takes its next event; with no such instance nothing happens. -/
def System.stepAt (y : System) (k : Nat) : Host.Outcome System Fault Refusal :=
  match y.units[k]? with
  | none => .next y
  | some s =>
    match step s with
    | .next t => .next { units := y.units.set k t }
    | .fault f => .fault f
    | .refused r => .refused r

end Sys2Proof.Machine
end

