-- ==== Sys2Proof/Safety.lean ====
section
/-!
DEFINITION. What claims are stated in: a run and its success (spec/60_exceptions.md R174,
spec/70_reset_and_hazards.md R206), the invariant of the states between commands (spec/10_state.md R23 to R28), the
states a command leaves when it answers or faults, and, declared without the decoders, what a varint at a place of the
buffer IS (spec/30_encoding.md R70, spec/42_bit_packed.md R158, R159).
-/

namespace Sys2Proof.Machine

/-! ## Runs -/

/-- A run has succeeded when no command faulted since reset (R174, R206). -/
def State.Succeeded (s : State) : Prop := s.flt = false

/-- Run every event the host has pending (R206). -/
def runAll (s : State) : Host.Outcome State Fault Refusal := Host.Core.run Sys2Proof.core s.inbox.length s

/-- Whether an event is a command, which is answered (R60), and not a reset, which is not (R190). -/
def HostEvent.isCommand : HostEvent → Bool
  | .command _ _ => true
  | .reset => false

/-! ## The states between commands -/

/-- The invariant: the buffer is in canonical form and inside its extent (R40), `POS` fits its register (R23), `CURV = 1`
only in `BITA` and then `CURB` is the byte at `POS` (R26), `BITOFF = 0` in `BYTE` mode (R25), and the fault register
holds 0s until a fault and one of the three causes after (R28, R170). -/
structure State.Inv (s : State) : Prop where
  memory : Memory.wf s.buf
  extent : ∀ c ∈ s.buf, c.1 < s.params.bufLen
  pos_min : posMin s.params ≤ s.pos
  pos_max : s.pos ≤ posMax s.params
  cache : s.curv = true → s.mode = .bita ∧ bufByte s s.pos = some s.curb
  bitoff : s.mode = .byte → s.bitoff = 0
  no_fault : s.flt = false → s.fcause = 0 ∧ s.finfo = 0
  fault : s.flt = true → s.fcause = 1 ∨ s.fcause = 2 ∨ s.fcause = 3

/-- The cache, when valid, holds the byte at `POS` (R26): the part of `Inv` that `BITA` reads rely on. -/
def State.Coherent (s : State) : Prop := s.curv = true → bufByte s s.pos = some s.curb

/-- What R29 says of one response. -/
def Response.Lawful (r : Response) : Prop :=
  (r.status = .ok → r.cause = 0) ∧
  (r.status = .fault → (r.cause = 1 ∨ r.cause = 2 ∨ r.cause = 3) ∧ r.value = none)

/-! ## What a command leaves -/

/-- `s` with one OK response more (R29). -/
def State.answered (s : State) (v : Option Value) : State :=
  { s with responses := s.responses ++ [{ status := .ok, cause := 0, value := v }] }

/-- `s` with a fault taken (R171): recorded if it is the first, one FAULT response more. -/
def State.faulted (s : State) (code : BitVec 4) (info : BitVec 64) : State :=
  { s with
    flt := true
    fcause := if s.flt then s.fcause else code
    finfo := if s.flt then s.finfo else info
    responses := s.responses ++ [{ status := .fault, cause := code, value := none }] }

/-! ## What a BYTE varint at an index is (R70, R15) -/

/-- A final byte (R15): `X <= b < X + L`. -/
def IsFinal (p : Params) (b : Byte) : Prop := p.x ≤ b.toNat ∧ b.toNat < p.x + p.l

/-- A continuation byte (R15): `b >= X + L`. -/
def IsContinuation (p : Params) (b : Byte) : Prop := p.x + p.l ≤ b.toNat

/-- An excluded byte (R15): `b < X`. -/
def IsExcluded (p : Params) (b : Byte) : Prop := b.toNat < p.x

/-- A lead byte that is a varint by itself (R70, R102): a final one, and an excluded one if `LEAD_CMP` is `SIGNED`. -/
def LeadEnds (p : Params) (b : Byte) : Prop := IsFinal p b ∨ (p.leadCmp = .signed ∧ IsExcluded p b)

/-- The exact sum of `(b_i - X) * 2^(LG_H * i)` over the bytes from place `i` on (R44, R100). -/
def digitSum (p : Params) : Nat → List Byte → Int
  | _, [] => 0
  | i, b :: bs => ((b.toNat : Int) - p.x) * 2 ^ (p.lgH * i) + digitSum p (i + 1) bs

/-- The bytes `bs` stand in the buffer from index `p` on. -/
def BytesAt (s : State) (p : Int) (bs : List Byte) : Prop :=
  ∀ (k : Nat) (b : Byte), bs[k]? = some b → bufByte s (p + k) = some b

/-- After a lead byte that does not end the varint, `more` are the other bytes it consumes, where `next` is what stands
behind them (R70): it ended at an excluded byte, at a final byte, or at the cap. -/
def VarintEnds (p : Params) (more : List Byte) (next : Option Byte) : Prop :=
  ((∀ b ∈ more, IsContinuation p b) ∧ more.length ≤ maxLength - 2 ∧ ∃ e, next = some e ∧ IsExcluded p e) ∨
  (∃ init last, more = init ++ [last] ∧ (∀ b ∈ init, IsContinuation p b) ∧ init.length ≤ maxLength - 2 ∧
    IsFinal p last) ∨
  ((∀ b ∈ more, IsContinuation p b) ∧ more.length = maxLength - 1)

/-- The varint at index `p` takes `n` bytes and its value is `v` (R70, R100, R103). -/
def VarintAt (s : State) (p : Int) (v : U32) (n : Nat) : Prop :=
  ∃ lead more, BytesAt s p (lead :: more) ∧ n = more.length + 1 ∧
    v = BitVec.ofInt 32 (digitSum s.params 0 (lead :: more)) ∧
    ((LeadEnds s.params lead ∧ more = []) ∨
      (¬ LeadEnds s.params lead ∧ VarintEnds s.params more (bufByte s (p + more.length + 1))))

/-- The bytes of the varint at index `p` run out of the buffer before it ends; `idx` is the first index outside (R101). -/
def VarintRunsOff (s : State) (p idx : Int) : Prop :=
  (idx = p ∧ bufByte s p = none) ∨
  ∃ lead more, BytesAt s p (lead :: more) ∧ ¬ LeadEnds s.params lead ∧ (∀ b ∈ more, IsContinuation s.params b) ∧
    more.length ≤ maxLength - 2 ∧ idx = p + more.length + 1 ∧ bufByte s idx = none

/-! ## What a bit-packed value at a bit of the stream is (R45, R158, R159) -/

/-- The bit cursor, `8 * POS + BITOFF` (R157). -/
def bitCursor (s : State) : Int := 8 * s.pos + (s.bitoff.toNat : Int)

/-- The stream's bit number `n` is `BUF[n / 8][7 - n % 8]` (R45). -/
def streamBit (s : State) (n : Int) : Option Bool :=
  (bufByte s (n / 8)).map fun b => b.getLsbD (7 - (n % 8).toNat)

/-- The logical byte at bit `n`: the eight bits from there on, most significant first (R15, R148). -/
def LogicalByteAt (s : State) (n : Int) (b : Byte) : Prop :=
  ∀ k : Nat, k < 8 → streamBit s (n + k) = some (b.getLsbD (7 - k))

/-- The logical bytes `bs` stand one after the other from bit `n` on. -/
def GroupsAt (s : State) (n : Int) (bs : List Byte) : Prop :=
  ∀ (j : Nat) (b : Byte), bs[j]? = some b → LogicalByteAt s (n + 8 * j) b

/-- Another group follows logical byte `b` of group `g`: its continuation bit is 1, and no cap stops there (R142, R146,
R149). -/
def GoesOn (p : Params) (g : Nat) (b : Byte) : Prop := continues g b = true ∧ p.bpMaxGroups ≠ some (g + 1)

/-- `bs` are all the groups of one value: every one but the last goes on, and the last does not. -/
def GroupsEnd (p : Params) (bs : List Byte) : Prop :=
  bs ≠ [] ∧ ∀ (j : Nat) (b : Byte), bs[j]? = some b → (GoesOn p j b ↔ j + 1 < bs.length)

/-- The value of variant A's groups from group `g` on: six bits each (R146, R158). -/
def groupsValueA (p : Params) : Nat → List Byte → U32
  | _, [] => 0
  | g, b :: bs => shl32 p (b &&& 0x3F) (6 * g) ||| groupsValueA p (g + 1) bs

/-- The value of variant B's groups after the first, from `i` on: seven bits each (R149, R159). -/
def laterGroupsB (p : Params) : Nat → List Byte → U32
  | _, [] => 0
  | i, b :: bs => shl32 p (b &&& 0x7F) (6 + 7 * i) ||| laterGroupsB p (i + 1) bs

/-- The value of variant B's groups: six bits in the first (R149, R159). -/
def groupsValueB (p : Params) : List Byte → U32
  | [] => 0
  | b :: bs => (b &&& 0x3F).setWidth 32 ||| laterGroupsB p 0 bs

/-- `s` with its bit cursor moved to bit `n`. -/
def State.atBit (s : State) (n : Int) : State := { s with pos := n / 8, bitoff := BitVec.ofInt 3 n }

/-- The three reads that every mode admits, each with the way it widens a varint (R66; R106, R108, R109; R150 to
R155). -/
inductive SharedRead : Instr → (U32 → Value) → Prop where
  | uint : SharedRead .readUint fun u => u.setWidth 64
  | bool : SharedRead .readBool fun u => if u = 0 then 0 else 1
  | i8 : SharedRead .readI8 fun u => (u.setWidth 8).signExtend 64

/-- The five cases of R65, on the fields of R61: the word is illegal in mode `m`. -/
def IllegalIn (m : Mode) (cw : CommandWord) : Prop :=
  cw.extractLsb' 6 10 ≠ 0 ∨ cw.extractLsb' 0 4 = 0xF ∨ (cw.extractLsb' 0 4 = 0 ∧ cw.extractLsb' 4 2 = 3) ∨
  (cw.extractLsb' 0 4 ≠ 0 ∧ cw.extractLsb' 4 2 ≠ 0) ∨
  (m ≠ .byte ∧ cw.extractLsb' 0 4 ∈ ([0x5, 0x8, 0x9, 0xA, 0xB, 0xC, 0xE] : List (BitVec 4)))

/-- The seven commands that only `BYTE` mode admits (R66). -/
def byteCodecOnly : List Instr :=
  [.readSint, .readI16, .readChar16, .readF32, .readF64, .readI64, .readByte]

/-- A read of one varint in `BYTE` mode, with its word and the way it widens the varint: it answers the varint at `POS`
and moves behind it, or, where the bytes run out, faults with the first index outside and nothing else changed. -/
def ByteModeRead (i : Instr) (cw : CommandWord) (f : U32 → Value) : Prop :=
  commandWord i = cw ∧ ∀ s : State, configOk s.params = true → s.mode = .byte →
    (∀ (v : U32) (n : Nat), VarintAt s s.pos v n →
      exec i s = .next (State.answered { s with pos := s.pos + n } (some (f v)))) ∧
    (∀ idx : Int, VarintRunsOff s s.pos idx → exec i s = .next (s.faulted 1 (BitVec.ofInt 64 idx)))

/-- A read of two varints in a row in `BYTE` mode, with its word and the way it joins them; a fault in the second one
leaves `POS` behind the first. -/
def ByteModeReadTwo (i : Instr) (cw : CommandWord) (f : U32 → U32 → Value) : Prop :=
  commandWord i = cw ∧ ∀ s : State, configOk s.params = true → s.mode = .byte →
    (∀ idx : Int, VarintRunsOff s s.pos idx → exec i s = .next (s.faulted 1 (BitVec.ofInt 64 idx))) ∧
    ∀ (v : U32) (n : Nat), VarintAt s s.pos v n →
      (∀ (w : U32) (m : Nat), VarintAt s (s.pos + n) w m →
        exec i s = .next (State.answered { s with pos := s.pos + n + m } (some (f v w)))) ∧
      (∀ idx : Int, VarintRunsOff s (s.pos + n) idx →
        exec i s = .next (State.faulted { s with pos := s.pos + n } 1 (BitVec.ofInt 64 idx)))

/-- A command that `BITA` and `BITB` reject, with no effect but the fault (R66, R67). -/
def ByteModeOnly (i : Instr) (cw : CommandWord) : Prop :=
  ∀ s : State, s.mode ≠ .byte → exec i s = .next (s.faulted 2 (cw.setWidth 64))

/-- The nine commands that decode a BYTE varint in `BYTE` mode (R106 to R114). -/
def varintReads : List Instr :=
  [.readUint, .readSint, .readBool, .readI8, .readI16, .readChar16, .readF32, .readF64, .readI64]

end Sys2Proof.Machine
end

