-- ==== Sys2Proof/Certificates/Slice0/Obligations.lean ====
section
/-!
DEFINITION. The statements for the provers. A conclusion `exec i s = .next { s with … }` gives an instruction's result,
its completion and its frame at once: every field it does not name is that of `s`.
-/

open Sys2Proof Sys2Proof.Machine

/-! ## Encoding -/

/-- Decoding the pair the host sends for a well-formed command gives the command back; and a decoded command has the
word it was decoded from, is well formed, and carries the low `POS_W` bits of the argument port where it has an argument
(R60 to R64). -/
def Obligations.RoundTripOfEveryCommand : Prop :=
  (∀ (posW : Nat) (i : Instr), i.wf posW = true → decode posW (encode i).1 (encode i).2 = .ok i) ∧
  ∀ (posW : Nat) (cw : CommandWord) (arg : Arg) (i : Instr), decode posW cw arg = .ok i →
    (encode i).1 = cw ∧ i.wf posW = true ∧ ∀ a, i.arg? = some a → a.toNat = arg.toNat % 2 ^ posW

/-- Words of the opcode map, written out from `RRRRRRRRRRMMFFFF` (R61, R63, R64), decode to their rows. -/
def Obligations.TableWordsDecodeToTheirRows : Prop :=
  decode 32 0b0000000000_00_0000#16 7 = .ok (.openByte 7) ∧ decode 32 0b0000000000_10_0000#16 7 = .ok (.openBitb 7) ∧
  decode 32 0b0000000000_00_0011#16 7 = .ok (.skip 7) ∧ decode 32 0b0000000000_00_0111#16 7 = .ok .readI8 ∧
  decode 32 0b0000000000_00_1011#16 7 = .ok .readF64 ∧ decode 32 0b0000000000_00_1101#16 7 = .ok (.peek 7)

/-- R65, R67: an illegal word faults with `IllegalCommand(zext_64(CW))` and no other effect, and every other word is a
command that its mode admits. -/
def Obligations.IllegalWordsFaultWithNoOtherEffect : Prop :=
  ∀ (s : State) (cw : CommandWord) (arg : Arg) (rest : List HostEvent), configOk s.params = true →
    s.inbox = .command cw arg :: rest →
    (IllegalIn s.mode cw → step s = .next (State.faulted { s with inbox := rest } 2 (cw.setWidth 64))) ∧
    (¬ IllegalIn s.mode cw → ∃ i, decode s.params.posW cw arg = .ok i ∧ ¬ (s.mode ≠ .byte ∧ i ∈ byteCodecOnly))

/-- R66: in `BITA` and `BITB` the seven commands of the byte codec raise `IllegalCommand` with no other effect, and no
other command in any mode does. -/
def Obligations.ModeAdmission : Prop :=
  ∀ (i : Instr) (s : State),
    (s.mode ≠ .byte ∧ i ∈ byteCodecOnly → exec i s = .next (s.faulted 2 ((commandWord i).setWidth 64))) ∧
    (¬ (s.mode ≠ .byte ∧ i ∈ byteCodecOnly) →
      ∃ t r, exec i s = .next t ∧ t.responses = s.responses ++ [r] ∧ r.cause ≠ 2)

/-- R62, D32: a command without an operand does the same whatever is on the argument port. (Where both sides fault in a
bit mode they take the same draw, the model's choice: assumption 13.) -/
def Obligations.UnusedArgumentIsIgnored : Prop :=
  ∀ (s : State) (cw : CommandWord) (a b : Arg) (rest : List HostEvent) (i : Instr),
    decode s.params.posW cw a = .ok i → i.arg? = none →
    step { s with inbox := .command cw a :: rest } = step { s with inbox := .command cw b :: rest }

/-- R12, R62: `as_signed_POS_W(ARG)` lies in the range of the register and agrees with `ARG` modulo `2^POS_W`. -/
def Obligations.ArgumentIsReadAsSigned : Prop :=
  ∀ (p : Params) (arg : Arg), configOk p = true →
    posMin p ≤ argValue p arg ∧ argValue p arg ≤ posMax p ∧
    (2 : Int) ^ p.posW ∣ argValue p arg - (arg.toNat : Int)

/-! ## Steps -/

/-- When the next event is a word that decodes to a command, a step takes it off the port and is `exec` of it (R60,
R80). -/
def Obligations.StepRunsTheDecodedCommand : Prop :=
  ∀ (s : State) (cw : CommandWord) (arg : Arg) (rest : List HostEvent) (i : Instr), configOk s.params = true →
    s.inbox = .command cw arg :: rest → decode s.params.posW cw arg = .ok i →
    step s = exec i { s with inbox := rest }

/-- R191: with no event pending the instance waits, and nothing changes. -/
def Obligations.NoEventChangesNothing : Prop :=
  ∀ (s : State), configOk s.params = true → s.inbox = [] → step s = .next s

/-- R8: a configuration that breaks a constraint is refused. -/
def Obligations.BrokenConfigurationIsRefused : Prop :=
  ∀ (s : State),
    ¬ (s.params.x ≤ 255 ∧ 1 ≤ s.params.l ∧ (s.params.l : Int) ≤ 256 - s.params.x ∧ 1 ≤ s.params.lgH ∧
      s.params.lgH ≤ 7 ∧ 2 ≤ s.params.posW ∧ s.params.posW ≤ 62 ∧
      (s.params.bufLen : Int) ≤ 2 ^ (s.params.posW - 1) - 1) →
    step s = .refused .badConfiguration

/-- R8, R142, R204: nothing else is refused and nothing ends in a fault of the model; a cap of 0 is counted with the
broken configurations (R142 lets it be a positive integer only: assumption 7, the model's reading). -/
def Obligations.EveryOtherStepGoesOn : Prop :=
  ∀ (s : State),
    (s.params.x ≤ 255 ∧ 1 ≤ s.params.l ∧ (s.params.l : Int) ≤ 256 - s.params.x ∧ 1 ≤ s.params.lgH ∧
      s.params.lgH ≤ 7 ∧ 2 ≤ s.params.posW ∧ s.params.posW ≤ 62 ∧
      (s.params.bufLen : Int) ≤ 2 ^ (s.params.posW - 1) - 1) →
    s.params.bpMaxGroups ≠ some 0 → ∃ t, step s = .next t

/-- R32: what every register holds right after reset (`CURB` is unspecified: nothing is said of it). -/
def Obligations.ResetValues : Prop :=
  State.reset.mode.bits = 0 ∧ State.reset.pos = 0 ∧ State.reset.bitoff = 0 ∧ State.reset.curv = false ∧
  State.reset.flt = false ∧ State.reset.fcause = 0 ∧ State.reset.finfo = 0

/-- R190: the reset event puts every register into its reset state, `CURB` a draw, answers nothing, and changes neither
parameters nor buffer. -/
def Obligations.ResetEventRestoresTheRegisters : Prop :=
  ∀ (s : State) (rest : List HostEvent), configOk s.params = true → s.inbox = .reset :: rest →
    ∃ c, step s = .next { s with
      inbox := rest, mode := .byte, pos := 0, bitoff := 0, curb := c, curv := false, flt := false, fcause := 0,
      finfo := 0, draws := s.draws + 1 }

/-! ## The cursor commands -/

/-- R81: `open` in each of its three forms, from every state, each with its word; `MF = 3` is illegal. -/
def Obligations.OpenStartsACursor : Prop :=
  ∀ (s : State) (a : Arg),
    commandWord (.openByte a) = 0x0000 ∧ commandWord (.openBita a) = 0x0010 ∧ commandWord (.openBitb a) = 0x0020 ∧
    decode s.params.posW 0x0030 a = .error .openModeField ∧
    exec (.openByte a) s =
      .next (State.answered { s with mode := .byte, pos := argValue s.params a, bitoff := 0, curv := false } none) ∧
    exec (.openBita a) s =
      .next (State.answered { s with mode := .bita, pos := argValue s.params a, bitoff := 0, curv := false } none) ∧
    exec (.openBitb a) s =
      .next (State.answered { s with mode := .bitb, pos := argValue s.params a, bitoff := 0, curv := false } none)

/-- R82: `getpos` answers `sext_64(POS)` and changes nothing. -/
def Obligations.GetposAnswersThePosition : Prop :=
  commandWord .getpos = 0x0001 ∧
  ∀ (s : State), exec .getpos s = .next (s.answered (some (BitVec.ofInt 64 s.pos)))

/-- R83: `setpos` takes any position, without looking at the buffer. -/
def Obligations.SetposMovesUnchecked : Prop :=
  ∀ (s : State) (a : Arg), commandWord (.setpos a) = 0x0002 ∧
    exec (.setpos a) s =
      .next (State.answered { s with
        pos := argValue s.params a, curv := false
        bitoff := if s.params.setposClearsBitoff = true then 0 else s.bitoff } none)

/-- R84: `skip` moves by the exact sum, or faults with nothing else changed if the sum does not fit in `POS`. -/
def Obligations.SkipMovesOrOverflows : Prop :=
  ∀ (s : State) (a : Arg), commandWord (.skip a) = 0x0003 ∧
    ((-(2 : Int) ^ (s.params.posW - 1) ≤ s.pos + argValue s.params a ∧
        s.pos + argValue s.params a ≤ 2 ^ (s.params.posW - 1) - 1) →
      exec (.skip a) s =
        .next (State.answered { s with
          pos := s.pos + argValue s.params a, curv := false
          bitoff := if s.params.setposClearsBitoff = true then 0 else s.bitoff } none)) ∧
    ((s.pos + argValue s.params a < -(2 : Int) ^ (s.params.posW - 1) ∨
        2 ^ (s.params.posW - 1) - 1 < s.pos + argValue s.params a) →
      exec (.skip a) s = .next (s.faulted 3 (BitVec.ofInt 64 (argValue s.params a))))

/-- R84: where it does not overflow, `skip n` is `setpos` of the position plus `n`. -/
def Obligations.SkipIsSetposOfTheSum : Prop :=
  ∀ (s : State) (a b : Arg), configOk s.params = true → argValue s.params b = s.pos + argValue s.params a →
    exec (.skip a) s = exec (.setpos b) s

/-- R85: `peek` answers the byte at `ARG` or faults, and changes no register either way. -/
def Obligations.PeekReadsWithoutMoving : Prop :=
  ∀ (s : State) (a : Arg), commandWord (.peek a) = 0x000D ∧
    (0 ≤ argValue s.params a ∧ argValue s.params a < s.params.bufLen →
      exec (.peek a) s =
        .next (s.answered (some ((Memory.read s.buf (argValue s.params a).toNat).setWidth 64)))) ∧
    (¬ (0 ≤ argValue s.params a ∧ argValue s.params a < s.params.bufLen) →
      exec (.peek a) s = .next (s.faulted 1 (BitVec.ofInt 64 (argValue s.params a))))

/-- R86: `read.byte` answers the byte at `POS` and advances by 1, or faults with `POS` unchanged; the bit modes reject
it. -/
def Obligations.ReadByteAdvances : Prop :=
  commandWord .readByte = 0x000E ∧ ByteModeOnly .readByte 0x000E ∧ ∀ (s : State), s.mode = .byte →
    (0 ≤ s.pos ∧ s.pos < s.params.bufLen →
      exec .readByte s =
        .next (State.answered { s with pos := s.pos + 1 } (some ((Memory.read s.buf s.pos.toNat).setWidth 64)))) ∧
    (¬ (0 ≤ s.pos ∧ s.pos < s.params.bufLen) →
      exec .readByte s = .next (s.faulted 1 (BitVec.ofInt 64 s.pos)))

/-! ## The buffer -/

/-- R40, R41, R192: an index holds the byte the host placed there, and one outside `[0, BUF_LEN)` holds none; the
buffer is in canonical form. -/
def Obligations.PlacedBytesAreRead : Prop :=
  ∀ (s : State) (bytes : List Byte),
    Memory.wf (s.withBuffer bytes).buf ∧ (s.withBuffer bytes).params.bufLen = bytes.length ∧
    (∀ n : Nat, bufByte (s.withBuffer bytes) n = bytes[n]?) ∧
    ∀ idx : Int, idx < 0 → bufByte (s.withBuffer bytes) idx = none

/-! ## BYTE mode -/

/-- R106: `read.uint` answers the varint at `POS`, zero-extended. -/
def Obligations.ReadUintInByteMode : Prop :=
  ByteModeRead .readUint 0x0004 fun v => v.setWidth 64

/-- R107: `read.sint` answers its sign decode, sign-extended. -/
def Obligations.ReadSintInByteMode : Prop :=
  (ByteModeRead .readSint 0x0005 fun v => BitVec.ofInt 64 (decodeSign v)) ∧ ByteModeOnly .readSint 0x0005

/-- R108: `read.bool` answers 1 for any nonzero varint, else 0. -/
def Obligations.ReadBoolInByteMode : Prop :=
  ByteModeRead .readBool 0x0006 fun v => if v = 0 then 0 else 1

/-- R109: `read.i8` answers the low 8 bits, sign-extended, with no sign decode. -/
def Obligations.ReadI8InByteMode : Prop :=
  ByteModeRead .readI8 0x0007 fun v => (v.setWidth 8).signExtend 64

/-- R110: `read.i16` sign-decodes first, then answers the low 16 bits, sign-extended. -/
def Obligations.ReadI16InByteMode : Prop :=
  (ByteModeRead .readI16 0x0008 fun v => (BitVec.ofInt 16 (decodeSign v)).signExtend 64) ∧
  ByteModeOnly .readI16 0x0008

/-- R111: `read.char16` answers the low 16 bits, zero-extended. -/
def Obligations.ReadChar16InByteMode : Prop :=
  (ByteModeRead .readChar16 0x0009 fun v => (v.setWidth 16).setWidth 64) ∧ ByteModeOnly .readChar16 0x0009

/-- R112: `read.f32` answers the bit-reversed varint, zero-extended. -/
def Obligations.ReadF32InByteMode : Prop :=
  (ByteModeRead .readF32 0x000A fun v => (rev32 v).setWidth 64) ∧ ByteModeOnly .readF32 0x000A

/-- R113: `read.f64` answers both varints bit-reversed, the first one in the HIGH half. -/
def Obligations.ReadF64InByteMode : Prop :=
  (ByteModeReadTwo .readF64 0x000B fun rh rl => rev32 rh ++ rev32 rl) ∧ ByteModeOnly .readF64 0x000B

/-- R114: `read.i64` answers both varints sign-decoded and cut to 32 bits, the first one in the LOW half. -/
def Obligations.ReadI64InByteMode : Prop :=
  (ByteModeReadTwo .readI64 0x000C fun lo hi =>
    BitVec.ofInt 32 (decodeSign hi) ++ BitVec.ofInt 32 (decodeSign lo)) ∧ ByteModeOnly .readI64 0x000C

/-- R70, R101: at every index there is a varint of 1 to 5 bytes, or its bytes run out of the buffer at one of the first
five indexes; never both. -/
def Obligations.EveryIndexHoldsAVarintOrRunsOff : Prop :=
  ∀ (s : State) (p : Int), configOk s.params = true →
    ((∃ v n, VarintAt s p v n ∧ 1 ≤ n ∧ n ≤ 5) ∨ ∃ idx, VarintRunsOff s p idx ∧ p ≤ idx ∧ idx ≤ p + 4) ∧
    ¬ ((∃ v n, VarintAt s p v n) ∧ ∃ idx, VarintRunsOff s p idx)

/-- R102: with `LEAD_CMP = SIGNED` a lead byte below `X` is a one-byte varint of value `2^32 - (X - b0)`; with
`UNSIGNED` it never ends a varint by itself, and an excluded byte right behind it makes the value the same. -/
def Obligations.LeadByteBelowX : Prop :=
  ∀ (s : State) (b : Byte), configOk s.params = true → s.mode = .byte → bufByte s s.pos = some b →
    b.toNat < s.params.x →
    (s.params.leadCmp = .signed →
      exec .readUint s =
        .next (State.answered { s with pos := s.pos + 1 }
          (some (BitVec.ofNat 64 (2 ^ 32 - (s.params.x - b.toNat)))))) ∧
    (s.params.leadCmp = .unsigned → bufByte s (s.pos + 1) = none →
      exec .readUint s = .next (s.faulted 1 (BitVec.ofInt 64 (s.pos + 1)))) ∧
    (s.params.leadCmp = .unsigned → ∀ e, bufByte s (s.pos + 1) = some e → e.toNat < s.params.x →
      exec .readUint s =
        .next (State.answered { s with pos := s.pos + 1 }
          (some (BitVec.ofNat 64 (2 ^ 32 - (s.params.x - b.toNat))))))

/-- R104: `decodeSign(u)` is `u / 2` for an even `u` and `-((u + 1) / 2)`, exact, for an odd one; it is a bijection
from `u32` onto `s32`, and the bit formula `(u >> 1) ^ (0 - u[0])` read as `s32`. (The even case is the spec's own: "the
even case, `u >> 1`, is the standard zig-zag inverse [from general knowledge, not in source]".) -/
def Obligations.DecodeSignIsTheZigZagInverse : Prop :=
  (∀ u : U32,
    (u.getLsbD 0 = false → 2 * decodeSign u = u.toNat) ∧
    (u.getLsbD 0 = true → 2 * decodeSign u = -((u.toNat : Int) + 1)) ∧
    -(2 : Int) ^ 31 ≤ decodeSign u ∧ decodeSign u < 2 ^ 31 ∧
    ((u >>> 1) ^^^ (0 - (u &&& 1))).toInt = decodeSign u) ∧
  ∀ z : Int, -(2 : Int) ^ 31 ≤ z → z < 2 ^ 31 → ∃! u : U32, decodeSign u = z

/-- R12, R105: bit `i` of `rev32(v)` is bit `31 - i` of `v`. -/
def Obligations.Rev32ReversesBits : Prop :=
  ∀ (v : U32) (i : Nat), i < 32 → (rev32 v).getLsbD i = v.getLsbD (31 - i)

/-- R116: no read command touches `BITOFF`, `CURB` or `CURV` in `BYTE` mode, nor takes a draw. -/
def Obligations.ByteReadsLeaveTheBitRegisters : Prop :=
  ∀ (s : State) (i : Instr), s.mode = .byte → i = .readByte ∨ i ∈ varintReads →
    ∃ t, exec i s = .next t ∧ t.bitoff = s.bitoff ∧ t.curb = s.curb ∧ t.curv = s.curv ∧ t.draws = s.draws

/-! ## The bit-packed modes -/

/-- R45, R145, R148: the merge of two bytes at offset `off` is the eight stream bits from there. -/
def Obligations.MergeIsTheNextEightBits : Prop :=
  ∀ (c n : Byte) (off : BitVec 3) (k : Nat), k < 8 →
    (mergeBytes c n off).getLsbD (7 - k) =
      if off.toNat + k < 8 then c.getLsbD (7 - (off.toNat + k)) else n.getLsbD (7 - (off.toNat + k - 8))

/-- R141: under `TRUNCATE` a group's bits at 32 and above are lost; under `MASK31` the count is taken modulo 32. -/
def Obligations.GroupShiftPlacesBits : Prop :=
  ∀ (p : Params) (v : Byte) (k j : Nat), j < 32 →
    (p.shiftMode = .truncate → (shl32 p v k).getLsbD j = (decide (k ≤ j) && v.getLsbD (j - k))) ∧
    (p.shiftMode = .mask31 → (shl32 p v k).getLsbD j = (decide (k % 32 ≤ j) && v.getLsbD (j - k % 32)))

/-- R147, R149, R153 to R155: in `BITB` a 0 marker is the value 0 and takes exactly one bit. -/
def Obligations.BitbZeroMarkerIsOneBit : Prop :=
  ∀ (s : State) (i : Instr) (f : U32 → Value), SharedRead i f → s.mode = .bitb →
    streamBit s (bitCursor s) = some false →
    exec i s = .next (State.answered (s.atBit (bitCursor s + 1)) (some (f 0)))

/-- R148, R149, R153 to R155, R159: in `BITB` a nonzero value is its logical bytes, the marker the top bit of the
first. -/
def Obligations.BitbValueIsItsGroups : Prop :=
  ∀ (s : State) (i : Instr) (f : U32 → Value) (bs : List Byte), SharedRead i f → s.mode = .bitb →
    streamBit s (bitCursor s) = some true → GroupsAt s (bitCursor s) bs → GroupsEnd s.params bs →
    exec i s =
      .next (State.answered (s.atBit (bitCursor s + 8 * bs.length)) (some (f (groupsValueB s.params bs))))

/-- R144, R146, R150 to R152: in `BITA` a 0 marker is the value 0 and takes one bit; at the end of a byte the next one
is fetched at once (`A_EAGER_ROLLOVER`) or not. -/
def Obligations.BitaZeroMarkerIsOneBit : Prop :=
  ∀ (s : State) (i : Instr) (f : U32 → Value) (c : Byte), SharedRead i f → s.mode = .bita → s.Coherent →
    bufByte s s.pos = some c → c.getLsbD (7 - s.bitoff.toNat) = false →
    (s.bitoff ≠ 7 →
      exec i s = .next (State.answered { s with bitoff := s.bitoff + 1, curb := c, curv := true } (some (f 0)))) ∧
    (s.bitoff = 7 → s.params.aEagerRollover = false →
      exec i s =
        .next (State.answered { s with pos := s.pos + 1, bitoff := 0, curb := c, curv := false } (some (f 0)))) ∧
    (s.bitoff = 7 → s.params.aEagerRollover = true → ∀ b, bufByte s (s.pos + 1) = some b →
      exec i s =
        .next (State.answered { s with pos := s.pos + 1, bitoff := 0, curb := b, curv := true } (some (f 0))))

/-- R144 to R146, R150 to R152, R158: in `BITA` a nonzero value is its marker, consumed or not
(`A_CONSUME_ON_NONZERO`), and its logical bytes; the cache is left as R145 says. -/
def Obligations.BitaValueIsItsGroups : Prop :=
  ∀ (s : State) (i : Instr) (f : U32 → Value) (bs : List Byte) (n m : Int), SharedRead i f → s.mode = .bita →
    s.Coherent → streamBit s (bitCursor s) = some true →
    n = bitCursor s + (if s.params.aConsumeOnNonzero = true then 1 else 0) → m = n + 8 * bs.length →
    GroupsAt s n bs → GroupsEnd s.params bs →
    ∃ c, exec i s =
        .next (State.answered { s.atBit m with curb := c, curv := decide (m % 8 ≠ 0) }
          (some (f (groupsValueA s.params 0 bs)))) ∧
      bufByte s (if m % 8 ≠ 0 then m / 8 else m / 8 - 1) = some c

/-- R156: a bit-mode read that raises `OutOfRange` leaves `POS`, `BITOFF` and `CURB` anything their registers can hold,
`CURV = 0`, and all else as it was but for the fault. -/
def Obligations.BitReadFaultLeavesDraws : Prop :=
  ∀ (s t : State) (i : Instr) (f : U32 → Value) (code : BitVec 4), configOk s.params = true → SharedRead i f →
    s.mode ≠ .byte → exec i s = .next t →
    t.responses = s.responses ++ [{ status := .fault, cause := code, value := none }] →
    ∃ p b c idx, posMin s.params ≤ p ∧ p ≤ posMax s.params ∧ bufByte s idx = none ∧
      t = State.faulted { s with pos := p, bitoff := b, curb := c, curv := false, draws := s.draws + 1 } 1
        (BitVec.ofInt 64 idx)

/-- R153, R175, R198: a `BITB` read whose groups go on to the end of the buffer faults with the first index outside. -/
def Obligations.BitbRunsOffTheBuffer : Prop :=
  ∀ (s : State) (i : Instr) (f : U32 → Value) (bs : List Byte) (m : Int), SharedRead i f → s.mode = .bitb →
    streamBit s (bitCursor s) = some true → GroupsAt s (bitCursor s) bs →
    (∀ (j : Nat) (b : Byte), bs[j]? = some b → GoesOn s.params j b) → m = bitCursor s + 8 * bs.length →
    bufByte s (if m % 8 = 0 then m / 8 else m / 8 + 1) = none →
    ∃ p b c, exec i s =
      .next (State.faulted { s with pos := p, bitoff := b, curb := c, curv := false, draws := s.draws + 1 } 1
        (BitVec.ofInt 64 (if m % 8 = 0 then m / 8 else m / 8 + 1)))

/-- R150, R175, R198: the same of a `BITA` read, from behind its marker. -/
def Obligations.BitaRunsOffTheBuffer : Prop :=
  ∀ (s : State) (i : Instr) (f : U32 → Value) (bs : List Byte) (n m : Int), SharedRead i f → s.mode = .bita →
    s.Coherent → streamBit s (bitCursor s) = some true →
    n = bitCursor s + (if s.params.aConsumeOnNonzero = true then 1 else 0) → GroupsAt s n bs →
    (∀ (j : Nat) (b : Byte), bs[j]? = some b → GoesOn s.params j b) → m = n + 8 * bs.length →
    bufByte s (if m % 8 = 0 then m / 8 else m / 8 + 1) = none →
    ∃ p b c, exec i s =
      .next (State.faulted { s with pos := p, bitoff := b, curb := c, curv := false, draws := s.draws + 1 } 1
        (BitVec.ofInt 64 (if m % 8 = 0 then m / 8 else m / 8 + 1)))

/-- R144, R147, R156: a bit-mode read with no byte at `POS` faults with `OutOfRange(POS)`. -/
def Obligations.MarkerOutsideTheBufferFaults : Prop :=
  ∀ (s : State) (i : Instr) (f : U32 → Value), SharedRead i f → s.mode ≠ .byte → s.Coherent →
    bufByte s s.pos = none →
    ∃ p b c, exec i s =
      .next (State.faulted { s with pos := p, bitoff := b, curb := c, curv := false, draws := s.draws + 1 } 1
        (BitVec.ofInt 64 s.pos))

/-- R157, R201: with eager rollover a `BITA` 0 marker that is the last bit of the buffer faults with
`OutOfRange(BUF_LEN)`. -/
def Obligations.EagerRolloverFaultsAtTheEnd : Prop :=
  ∀ (s : State) (i : Instr) (f : U32 → Value), SharedRead i f → s.mode = .bita → s.Coherent →
    s.params.aEagerRollover = true → 0 ≤ s.pos → bitCursor s + 1 = 8 * s.params.bufLen →
    streamBit s (bitCursor s) = some false →
    ∃ p b c, exec i s =
      .next (State.faulted { s with pos := p, bitoff := b, curb := c, curv := false, draws := s.draws + 1 } 1
        (BitVec.ofInt 64 s.params.bufLen))

/-- R26, R143, R56: a valid cache gives what a fresh read gives: dropping it changes nothing a `BITA` read does.
(Where both sides fault they take the same draw, the model's choice: assumption 13.) -/
def Obligations.CacheHitEqualsAFreshRead : Prop :=
  ∀ (s : State) (c : Byte) (i : Instr) (f : U32 → Value), SharedRead i f → s.mode = .bita → s.Coherent →
    exec i { s with curb := c, curv := false } = exec i s

/-- R26, R32: no command reads `CURB` while `CURV = 0`: two states that differ in that byte alone answer alike, and
differ in it at most. (Where both fault in a bit mode they take the same draw, the model's choice: assumption 13.) -/
def Obligations.StaleCacheByteIsNeverRead : Prop :=
  ∀ (s : State) (c : Byte) (i : Instr), s.curv = false →
    ∃ t u, exec i s = .next t ∧ exec i { s with curb := c } = .next u ∧ u = { t with curb := u.curb } ∧
      (t.curv = true → u.curb = t.curb)

/-! ## The whole machine -/

/-- R29, R60, R142, R204: every command, in every state, ends and is answered by exactly one response, which is as R29
says. -/
def Obligations.EveryCommandIsAnsweredOnce : Prop :=
  ∀ (i : Instr) (s : State), ∃ t r, exec i s = .next t ∧ t.responses = s.responses ++ [r] ∧ r.Lawful

/-- R28, R171: a command that succeeds leaves the fault register alone; one that faults sets it, but keeps an earlier
fault. -/
def Obligations.FaultRegisterKeepsTheFirstFault : Prop :=
  ∀ (i : Instr) (s t : State), exec i s = .next t →
    ∃ r, t.responses = s.responses ++ [r] ∧
      (r.status = .ok → t.flt = s.flt ∧ t.fcause = s.fcause ∧ t.finfo = s.finfo) ∧
      (r.status = .fault → t.flt = true ∧
        (s.flt = true → t.fcause = s.fcause ∧ t.finfo = s.finfo) ∧ (s.flt = false → t.fcause = r.cause))

/-- R172: what a fault leaves of the registers, whichever command it ends: the mode always; the cursor registers but in
the bit modes' own reads, which clear `CURV`; `POS` but in the two compound reads of `BYTE` mode. -/
def Obligations.FaultLeavesTheRegisters : Prop :=
  ∀ (i : Instr) (s t : State) (code : BitVec 4), exec i s = .next t →
    t.responses = s.responses ++ [{ status := .fault, cause := code, value := none }] →
    t.mode = s.mode ∧
    (s.mode ≠ .byte → i ∈ ([.readUint, .readBool, .readI8] : List Instr) → t.curv = false) ∧
    (s.mode = .byte ∨ i ∉ ([.readUint, .readBool, .readI8] : List Instr) →
      t.bitoff = s.bitoff ∧ t.curb = s.curb ∧ t.curv = s.curv ∧ t.draws = s.draws ∧
      (s.mode ≠ .byte ∨ i ∉ ([.readF64, .readI64] : List Instr) → t.pos = s.pos))

/-- R42 (and R9): no step changes the parameters or the buffer. -/
def Obligations.NoStepChangesParamsOrBuffer : Prop :=
  ∀ (s t : State), step s = .next t → t.params = s.params ∧ t.buf = s.buf

/-- R81: `open` is the only command that can change `MODE`, and no command touches the host's side of the port. -/
def Obligations.OnlyOpenChangesTheMode : Prop :=
  ∀ (i : Instr) (s t : State), exec i s = .next t →
    t.inbox = s.inbox ∧
    ((∀ a, i ≠ .openByte a ∧ i ≠ .openBita a ∧ i ≠ .openBitb a) → t.mode = s.mode)

/-- The invariant holds at reset. -/
def Obligations.InvHoldsAtReset : Prop := State.reset.Inv

/-- R23 to R28, R170: every step from a state that meets the invariant gives one that does. -/
def Obligations.EveryStepKeepsInv : Prop :=
  ∀ (s t : State), s.Inv → step s = .next t → t.Inv

/-- R14, R60, R205, R206: a run of any finite sequence of events ends, with every command answered by one lawful
response, in order, and every reset by none. -/
def Obligations.RunAnswersEveryCommand : Prop :=
  ∀ (s : State), configOk s.params = true →
    ∃ t rs, runAll s = .next t ∧ t.inbox = [] ∧ t.responses = s.responses ++ rs ∧
      rs.length = s.inbox.countP HostEvent.isCommand ∧ (∀ r ∈ rs, r.Lawful) ∧ t.params = s.params ∧ t.buf = s.buf

/-- R28, R174: a run of commands has succeeded exactly when none before or in it faulted. -/
def Obligations.RunSucceedsWhenNoCommandFaults : Prop :=
  ∀ (s t : State) (rs : List Response), configOk s.params = true → (∀ e ∈ s.inbox, e.isCommand = true) →
    runAll s = .next t → t.responses = s.responses ++ rs →
    (t.Succeeded ↔ s.Succeeded ∧ ∀ r ∈ rs, r.status = .ok)

/-- R157: in `BITB`, `N` reads over `N` 0 markers inside the buffer answer `N` zeros and advance the bit cursor by
exactly `N`. -/
def Obligations.ZeroMarkersDecodeToZeros : Prop :=
  ∀ (s : State) (a : Arg) (n : Nat), configOk s.params = true → s.mode = .bitb →
    s.inbox = List.replicate n (.command 0x0004 a) →
    (∀ k : Nat, k < n → streamBit s (bitCursor s + k) = some false) →
    runAll s = .next { s.atBit (bitCursor s + n) with
      inbox := [], responses := s.responses ++ List.replicate n { status := .ok, cause := 0, value := some 0 } }

/-- R53, R180: steps of two instances of one system commute. (Both orders take the same draws, the model's choice:
assumption 13.) -/
def Obligations.StepsOfDifferentUnitsCommute : Prop :=
  ∀ (y y₁ y₂ : System) (j k : Nat), j ≠ k → y.stepAt j = .next y₁ → y₁.stepAt k = .next y₂ →
    ∃ z, y.stepAt k = .next z ∧ z.stepAt j = .next y₂

/-- R53, R180: a step of one instance leaves every other as it was, and all go on sharing parameters and buffer. -/
def Obligations.UnitsStayApart : Prop :=
  ∀ (y z : System) (k : Nat), y.Shared → y.stepAt k = .next z →
    z.Shared ∧ ∀ j, j ≠ k → z.units[j]? = y.units[j]?
end

