-- ==== Sys2Proof/Laws/Claims.lean ====
section
/-!
SUPPORT. How the predicates of Safety.lean over the buffer are met, byte by byte and group by group.
-/

namespace Sys2Proof.Machine

theorem bytesAt_nil (s : State) (p : Int) : BytesAt s p [] := by
  intro k b h
  simp at h

theorem bytesAt_cons {s : State} {p : Int} {b : Byte} {bs : List Byte} (h : bufByte s p = some b)
    (hs : BytesAt s (p + 1) bs) : BytesAt s p (b :: bs) := by
  intro k c hk
  cases k with
  | zero =>
    simp only [List.getElem?_cons_zero, Option.some.injEq] at hk
    simpa [hk] using h
  | succ k =>
    rw [← hs k c (by simpa using hk)]
    congr 1
    push_cast
    ring

theorem groupsAt_nil (s : State) (n : Int) : GroupsAt s n [] := by
  intro j b h
  simp at h

theorem groupsAt_cons {s : State} {n : Int} {b : Byte} {bs : List Byte} (h : LogicalByteAt s n b)
    (hs : GroupsAt s (n + 8) bs) : GroupsAt s n (b :: bs) := by
  intro j c hj
  cases j with
  | zero =>
    simp only [List.getElem?_cons_zero, Option.some.injEq] at hj
    simpa [hj] using h
  | succ j =>
    have := hs j c (by simpa using hj)
    rw [show n + 8 * ((j + 1 : Nat) : Int) = n + 8 + 8 * j by push_cast; ring]
    exact this

/-- One group is a whole value when it does not go on. -/
theorem groupsEnd_one {p : Params} {b : Byte} (h : ¬ GoesOn p 0 b) : GroupsEnd p [b] := by
  refine ⟨by simp, fun j c hj => ?_⟩
  cases j with
  | zero =>
    simp only [List.getElem?_cons_zero, Option.some.injEq] at hj
    subst hj
    simpa using h
  | succ j => simp at hj

/-- Two groups are a whole value when the first goes on and the second does not. -/
theorem groupsEnd_two {p : Params} {b c : Byte} (h₀ : GoesOn p 0 b) (h₁ : ¬ GoesOn p 1 c) : GroupsEnd p [b, c] := by
  refine ⟨by simp, fun j d hj => ?_⟩
  cases j with
  | zero =>
    simp only [List.getElem?_cons_zero, Option.some.injEq] at hj
    subst hj
    simpa using h₀
  | succ j =>
    cases j with
    | zero =>
      simp only [List.getElem?_cons_succ, List.getElem?_cons_zero, Option.some.injEq] at hj
      subst hj
      simpa using h₁
    | succ j => simp at hj

theorem goesOn_none (p : Params) (j : Nat) (b : Byte) (h : ([] : List Byte)[j]? = some b) : GoesOn p j b := by
  simp at h

theorem goesOn_one {p : Params} {b : Byte} (h : GoesOn p 0 b) (j : Nat) (c : Byte) (hj : [b][j]? = some c) :
    GoesOn p j c := by
  cases j with
  | zero =>
    simp only [List.getElem?_cons_zero, Option.some.injEq] at hj
    exact hj ▸ h
  | succ j => simp at hj

/-- A state with an invalid cache is coherent (R26). -/
theorem coherent_of_curv {s : State} (h : s.curv = false) : s.Coherent := by
  intro h'
  rw [h] at h'
  cases h'

end Sys2Proof.Machine
end

