-- ==== Sys2Proof/Laws/State.lean ====
section
/-!
SUPPORT. One lemma per field per update of State, so that no later proof unfolds a record update.
-/

namespace Sys2Proof.Machine

variable (s : State)

@[simp] theorem State.setPos_params (p : Int) : (s.setPos p).params = s.params := rfl
@[simp] theorem State.setPos_buf (p : Int) : (s.setPos p).buf = s.buf := rfl
@[simp] theorem State.setPos_mode (p : Int) : (s.setPos p).mode = s.mode := rfl
@[simp] theorem State.setPos_pos (p : Int) : (s.setPos p).pos = p := rfl
@[simp] theorem State.setPos_bitoff (p : Int) : (s.setPos p).bitoff = s.bitoff := rfl
@[simp] theorem State.setPos_curb (p : Int) : (s.setPos p).curb = s.curb := rfl
@[simp] theorem State.setPos_curv (p : Int) : (s.setPos p).curv = s.curv := rfl
@[simp] theorem State.setPos_flt (p : Int) : (s.setPos p).flt = s.flt := rfl
@[simp] theorem State.setPos_fcause (p : Int) : (s.setPos p).fcause = s.fcause := rfl
@[simp] theorem State.setPos_finfo (p : Int) : (s.setPos p).finfo = s.finfo := rfl
@[simp] theorem State.setPos_inbox (p : Int) : (s.setPos p).inbox = s.inbox := rfl
@[simp] theorem State.setPos_responses (p : Int) : (s.setPos p).responses = s.responses := rfl
@[simp] theorem State.setPos_draws (p : Int) : (s.setPos p).draws = s.draws := rfl

@[simp] theorem State.setBitoff_params (b : BitVec 3) : (s.setBitoff b).params = s.params := rfl
@[simp] theorem State.setBitoff_buf (b : BitVec 3) : (s.setBitoff b).buf = s.buf := rfl
@[simp] theorem State.setBitoff_mode (b : BitVec 3) : (s.setBitoff b).mode = s.mode := rfl
@[simp] theorem State.setBitoff_pos (b : BitVec 3) : (s.setBitoff b).pos = s.pos := rfl
@[simp] theorem State.setBitoff_bitoff (b : BitVec 3) : (s.setBitoff b).bitoff = b := rfl
@[simp] theorem State.setBitoff_curb (b : BitVec 3) : (s.setBitoff b).curb = s.curb := rfl
@[simp] theorem State.setBitoff_curv (b : BitVec 3) : (s.setBitoff b).curv = s.curv := rfl
@[simp] theorem State.setBitoff_flt (b : BitVec 3) : (s.setBitoff b).flt = s.flt := rfl
@[simp] theorem State.setBitoff_fcause (b : BitVec 3) : (s.setBitoff b).fcause = s.fcause := rfl
@[simp] theorem State.setBitoff_finfo (b : BitVec 3) : (s.setBitoff b).finfo = s.finfo := rfl
@[simp] theorem State.setBitoff_inbox (b : BitVec 3) : (s.setBitoff b).inbox = s.inbox := rfl
@[simp] theorem State.setBitoff_responses (b : BitVec 3) : (s.setBitoff b).responses = s.responses := rfl
@[simp] theorem State.setBitoff_draws (b : BitVec 3) : (s.setBitoff b).draws = s.draws := rfl

@[simp] theorem State.loadCache_params (b : Byte) : (s.loadCache b).params = s.params := rfl
@[simp] theorem State.loadCache_buf (b : Byte) : (s.loadCache b).buf = s.buf := rfl
@[simp] theorem State.loadCache_mode (b : Byte) : (s.loadCache b).mode = s.mode := rfl
@[simp] theorem State.loadCache_pos (b : Byte) : (s.loadCache b).pos = s.pos := rfl
@[simp] theorem State.loadCache_bitoff (b : Byte) : (s.loadCache b).bitoff = s.bitoff := rfl
@[simp] theorem State.loadCache_curb (b : Byte) : (s.loadCache b).curb = b := rfl
@[simp] theorem State.loadCache_curv (b : Byte) : (s.loadCache b).curv = true := rfl
@[simp] theorem State.loadCache_flt (b : Byte) : (s.loadCache b).flt = s.flt := rfl
@[simp] theorem State.loadCache_fcause (b : Byte) : (s.loadCache b).fcause = s.fcause := rfl
@[simp] theorem State.loadCache_finfo (b : Byte) : (s.loadCache b).finfo = s.finfo := rfl
@[simp] theorem State.loadCache_inbox (b : Byte) : (s.loadCache b).inbox = s.inbox := rfl
@[simp] theorem State.loadCache_responses (b : Byte) : (s.loadCache b).responses = s.responses := rfl
@[simp] theorem State.loadCache_draws (b : Byte) : (s.loadCache b).draws = s.draws := rfl

@[simp] theorem State.dropCache_params : (s.dropCache).params = s.params := rfl
@[simp] theorem State.dropCache_buf : (s.dropCache).buf = s.buf := rfl
@[simp] theorem State.dropCache_mode : (s.dropCache).mode = s.mode := rfl
@[simp] theorem State.dropCache_pos : (s.dropCache).pos = s.pos := rfl
@[simp] theorem State.dropCache_bitoff : (s.dropCache).bitoff = s.bitoff := rfl
@[simp] theorem State.dropCache_curb : (s.dropCache).curb = s.curb := rfl
@[simp] theorem State.dropCache_curv : (s.dropCache).curv = false := rfl
@[simp] theorem State.dropCache_flt : (s.dropCache).flt = s.flt := rfl
@[simp] theorem State.dropCache_fcause : (s.dropCache).fcause = s.fcause := rfl
@[simp] theorem State.dropCache_finfo : (s.dropCache).finfo = s.finfo := rfl
@[simp] theorem State.dropCache_inbox : (s.dropCache).inbox = s.inbox := rfl
@[simp] theorem State.dropCache_responses : (s.dropCache).responses = s.responses := rfl
@[simp] theorem State.dropCache_draws : (s.dropCache).draws = s.draws := rfl

@[simp] theorem State.setMode_params (m : Mode) : (s.setMode m).params = s.params := rfl
@[simp] theorem State.setMode_buf (m : Mode) : (s.setMode m).buf = s.buf := rfl
@[simp] theorem State.setMode_mode (m : Mode) : (s.setMode m).mode = m := rfl
@[simp] theorem State.setMode_pos (m : Mode) : (s.setMode m).pos = s.pos := rfl
@[simp] theorem State.setMode_bitoff (m : Mode) : (s.setMode m).bitoff = s.bitoff := rfl
@[simp] theorem State.setMode_curb (m : Mode) : (s.setMode m).curb = s.curb := rfl
@[simp] theorem State.setMode_curv (m : Mode) : (s.setMode m).curv = s.curv := rfl
@[simp] theorem State.setMode_flt (m : Mode) : (s.setMode m).flt = s.flt := rfl
@[simp] theorem State.setMode_fcause (m : Mode) : (s.setMode m).fcause = s.fcause := rfl
@[simp] theorem State.setMode_finfo (m : Mode) : (s.setMode m).finfo = s.finfo := rfl
@[simp] theorem State.setMode_inbox (m : Mode) : (s.setMode m).inbox = s.inbox := rfl
@[simp] theorem State.setMode_responses (m : Mode) : (s.setMode m).responses = s.responses := rfl
@[simp] theorem State.setMode_draws (m : Mode) : (s.setMode m).draws = s.draws := rfl

@[simp] theorem State.setFault_params (f : Bool) (c : BitVec 4) (i : BitVec 64) : (s.setFault f c i).params = s.params := rfl
@[simp] theorem State.setFault_buf (f : Bool) (c : BitVec 4) (i : BitVec 64) : (s.setFault f c i).buf = s.buf := rfl
@[simp] theorem State.setFault_mode (f : Bool) (c : BitVec 4) (i : BitVec 64) : (s.setFault f c i).mode = s.mode := rfl
@[simp] theorem State.setFault_pos (f : Bool) (c : BitVec 4) (i : BitVec 64) : (s.setFault f c i).pos = s.pos := rfl
@[simp] theorem State.setFault_bitoff (f : Bool) (c : BitVec 4) (i : BitVec 64) : (s.setFault f c i).bitoff = s.bitoff := rfl
@[simp] theorem State.setFault_curb (f : Bool) (c : BitVec 4) (i : BitVec 64) : (s.setFault f c i).curb = s.curb := rfl
@[simp] theorem State.setFault_curv (f : Bool) (c : BitVec 4) (i : BitVec 64) : (s.setFault f c i).curv = s.curv := rfl
@[simp] theorem State.setFault_flt (f : Bool) (c : BitVec 4) (i : BitVec 64) : (s.setFault f c i).flt = f := rfl
@[simp] theorem State.setFault_fcause (f : Bool) (c : BitVec 4) (i : BitVec 64) : (s.setFault f c i).fcause = c := rfl
@[simp] theorem State.setFault_finfo (f : Bool) (c : BitVec 4) (i : BitVec 64) : (s.setFault f c i).finfo = i := rfl
@[simp] theorem State.setFault_inbox (f : Bool) (c : BitVec 4) (i : BitVec 64) : (s.setFault f c i).inbox = s.inbox := rfl
@[simp] theorem State.setFault_responses (f : Bool) (c : BitVec 4) (i : BitVec 64) : (s.setFault f c i).responses = s.responses := rfl
@[simp] theorem State.setFault_draws (f : Bool) (c : BitVec 4) (i : BitVec 64) : (s.setFault f c i).draws = s.draws := rfl

@[simp] theorem State.pushResponse_params (r : Response) : (s.pushResponse r).params = s.params := rfl
@[simp] theorem State.pushResponse_buf (r : Response) : (s.pushResponse r).buf = s.buf := rfl
@[simp] theorem State.pushResponse_mode (r : Response) : (s.pushResponse r).mode = s.mode := rfl
@[simp] theorem State.pushResponse_pos (r : Response) : (s.pushResponse r).pos = s.pos := rfl
@[simp] theorem State.pushResponse_bitoff (r : Response) : (s.pushResponse r).bitoff = s.bitoff := rfl
@[simp] theorem State.pushResponse_curb (r : Response) : (s.pushResponse r).curb = s.curb := rfl
@[simp] theorem State.pushResponse_curv (r : Response) : (s.pushResponse r).curv = s.curv := rfl
@[simp] theorem State.pushResponse_flt (r : Response) : (s.pushResponse r).flt = s.flt := rfl
@[simp] theorem State.pushResponse_fcause (r : Response) : (s.pushResponse r).fcause = s.fcause := rfl
@[simp] theorem State.pushResponse_finfo (r : Response) : (s.pushResponse r).finfo = s.finfo := rfl
@[simp] theorem State.pushResponse_inbox (r : Response) : (s.pushResponse r).inbox = s.inbox := rfl
@[simp] theorem State.pushResponse_responses (r : Response) : (s.pushResponse r).responses = s.responses ++ [r] := rfl
@[simp] theorem State.pushResponse_draws (r : Response) : (s.pushResponse r).draws = s.draws := rfl

@[simp] theorem State.setInbox_params (es : List HostEvent) : (s.setInbox es).params = s.params := rfl
@[simp] theorem State.setInbox_buf (es : List HostEvent) : (s.setInbox es).buf = s.buf := rfl
@[simp] theorem State.setInbox_mode (es : List HostEvent) : (s.setInbox es).mode = s.mode := rfl
@[simp] theorem State.setInbox_pos (es : List HostEvent) : (s.setInbox es).pos = s.pos := rfl
@[simp] theorem State.setInbox_bitoff (es : List HostEvent) : (s.setInbox es).bitoff = s.bitoff := rfl
@[simp] theorem State.setInbox_curb (es : List HostEvent) : (s.setInbox es).curb = s.curb := rfl
@[simp] theorem State.setInbox_curv (es : List HostEvent) : (s.setInbox es).curv = s.curv := rfl
@[simp] theorem State.setInbox_flt (es : List HostEvent) : (s.setInbox es).flt = s.flt := rfl
@[simp] theorem State.setInbox_fcause (es : List HostEvent) : (s.setInbox es).fcause = s.fcause := rfl
@[simp] theorem State.setInbox_finfo (es : List HostEvent) : (s.setInbox es).finfo = s.finfo := rfl
@[simp] theorem State.setInbox_inbox (es : List HostEvent) : (s.setInbox es).inbox = es := rfl
@[simp] theorem State.setInbox_responses (es : List HostEvent) : (s.setInbox es).responses = s.responses := rfl
@[simp] theorem State.setInbox_draws (es : List HostEvent) : (s.setInbox es).draws = s.draws := rfl

@[simp] theorem State.setCurb_params (b : Byte) : (s.setCurb b).params = s.params := rfl
@[simp] theorem State.setCurb_buf (b : Byte) : (s.setCurb b).buf = s.buf := rfl
@[simp] theorem State.setCurb_mode (b : Byte) : (s.setCurb b).mode = s.mode := rfl
@[simp] theorem State.setCurb_pos (b : Byte) : (s.setCurb b).pos = s.pos := rfl
@[simp] theorem State.setCurb_bitoff (b : Byte) : (s.setCurb b).bitoff = s.bitoff := rfl
@[simp] theorem State.setCurb_curb (b : Byte) : (s.setCurb b).curb = b := rfl
@[simp] theorem State.setCurb_curv (b : Byte) : (s.setCurb b).curv = s.curv := rfl
@[simp] theorem State.setCurb_flt (b : Byte) : (s.setCurb b).flt = s.flt := rfl
@[simp] theorem State.setCurb_fcause (b : Byte) : (s.setCurb b).fcause = s.fcause := rfl
@[simp] theorem State.setCurb_finfo (b : Byte) : (s.setCurb b).finfo = s.finfo := rfl
@[simp] theorem State.setCurb_inbox (b : Byte) : (s.setCurb b).inbox = s.inbox := rfl
@[simp] theorem State.setCurb_responses (b : Byte) : (s.setCurb b).responses = s.responses := rfl
@[simp] theorem State.setCurb_draws (b : Byte) : (s.setCurb b).draws = s.draws := rfl

@[simp] theorem State.countDraw_params : (s.countDraw).params = s.params := rfl
@[simp] theorem State.countDraw_buf : (s.countDraw).buf = s.buf := rfl
@[simp] theorem State.countDraw_mode : (s.countDraw).mode = s.mode := rfl
@[simp] theorem State.countDraw_pos : (s.countDraw).pos = s.pos := rfl
@[simp] theorem State.countDraw_bitoff : (s.countDraw).bitoff = s.bitoff := rfl
@[simp] theorem State.countDraw_curb : (s.countDraw).curb = s.curb := rfl
@[simp] theorem State.countDraw_curv : (s.countDraw).curv = s.curv := rfl
@[simp] theorem State.countDraw_flt : (s.countDraw).flt = s.flt := rfl
@[simp] theorem State.countDraw_fcause : (s.countDraw).fcause = s.fcause := rfl
@[simp] theorem State.countDraw_finfo : (s.countDraw).finfo = s.finfo := rfl
@[simp] theorem State.countDraw_inbox : (s.countDraw).inbox = s.inbox := rfl
@[simp] theorem State.countDraw_responses : (s.countDraw).responses = s.responses := rfl
@[simp] theorem State.countDraw_draws : (s.countDraw).draws = s.draws + 1 := rfl

end Sys2Proof.Machine
end

