-- ==== Sys2Proof/Laws/Ops.lean ====
section
/-!
SUPPORT. One lemma for each shared operation that says everything it can do: the read port, responding and faulting,
running a command, and the frame of the decoders (they write the cursor registers and nothing else).
-/

namespace Sys2Proof.Machine

/-! ## Replies -/

section Replies
variable {α β : Type}

@[simp] theorem andThen_value (a : α) (s : State) (k : α → State → Reply β) :
    (Reply.value a s).andThen k = k a s := rfl

@[simp] theorem andThen_raised (e : Raise) (s : State) (k : α → State → Reply β) :
    (Reply.raised e s).andThen k = .raised e s := rfl

@[simp] theorem andThen_stuck (f : Fault) (k : α → State → Reply β) :
    (Reply.stuck f : Reply α).andThen k = .stuck f := rfl

theorem andThen_eq_value {r : Reply α} {k : α → State → Reply β} {b : β} {t : State}
    (h : r.andThen k = .value b t) : ∃ a s, r = .value a s ∧ k a s = .value b t := by
  cases r with
  | value a s => exact ⟨a, s, rfl, h⟩
  | raised e s => cases h
  | stuck f => cases h

theorem andThen_eq_raised {r : Reply α} {k : α → State → Reply β} {e : Raise} {t : State}
    (h : r.andThen k = .raised e t) : r = .raised e t ∨ ∃ a s, r = .value a s ∧ k a s = .raised e t := by
  cases r with
  | value a s => exact .inr ⟨a, s, rfl, h⟩
  | raised e s => exact .inl (by cases h; rfl)
  | stuck f => cases h

theorem andThen_eq_stuck {r : Reply α} {k : α → State → Reply β} {f : Fault}
    (h : r.andThen k = .stuck f) : r = .stuck f ∨ ∃ a s, r = .value a s ∧ k a s = .stuck f := by
  cases r with
  | value a s => exact .inr ⟨a, s, rfl, h⟩
  | raised e s => cases h
  | stuck f => exact .inl (by cases h; rfl)

end Replies

/-! ## The read port (R41) -/

theorem bufByte_congr {s t : State} (hp : t.params = s.params) (hb : t.buf = s.buf) (idx : Int) :
    bufByte t idx = bufByte s idx := by simp [bufByte, hp, hb]

theorem bufByte_some {s : State} {idx : Int} {b : Byte} (h : bufByte s idx = some b) :
    0 ≤ idx ∧ idx < (s.params.bufLen : Int) := by
  unfold bufByte at h
  split at h
  · assumption
  · cases h

theorem bufByte_eq_none {s : State} {idx : Int} :
    bufByte s idx = none ↔ ¬ (0 ≤ idx ∧ idx < (s.params.bufLen : Int)) := by
  unfold bufByte
  split <;> simp_all

theorem memRead_of_some {s : State} {idx : Int} {b : Byte} (h : bufByte s idx = some b) :
    memRead idx s = .value b s := by simp [memRead, h]

theorem memRead_of_none {s : State} {idx : Int} (h : bufByte s idx = none) :
    memRead idx s = .raised (.outOfRange idx) s := by simp [memRead, h]

theorem memRead_cases (idx : Int) (s : State) :
    (∃ b, bufByte s idx = some b ∧ memRead idx s = .value b s) ∨
    (bufByte s idx = none ∧ memRead idx s = .raised (.outOfRange idx) s) := by
  cases h : bufByte s idx with
  | none => exact .inr ⟨rfl, memRead_of_none h⟩
  | some b => exact .inl ⟨b, rfl, memRead_of_some h⟩

theorem memRead_ne_stuck (idx : Int) (s : State) (f : Fault) : memRead idx s ≠ .stuck f := by
  obtain ⟨b, -, h⟩ | ⟨-, h⟩ := memRead_cases idx s <;> simp [h]

/-! ## Responding and faulting (R29, R171) -/

theorem respondOk_eq (v : Option Value) (s : State) : respondOk v s = s.answered v := rfl

theorem takeFault_eq (e : Raise) (s : State) : takeFault e s = s.faulted (raiseCode e) (raiseInfo e) := by
  unfold takeFault recordFault State.faulted
  split <;> rename_i h
  · cases s; simp_all [State.pushResponse]
  · simp [State.pushResponse, State.setFault]

@[simp] theorem finish_value (v : Option Value) (s : State) : finish (.value v s) = .next (s.answered v) := rfl

@[simp] theorem finish_raised (e : Raise) (s : State) :
    finish (.raised e s) = .next (s.faulted (raiseCode e) (raiseInfo e)) := by simp [finish, takeFault_eq]

/-- Everything a command can do (R80): it is rejected for its mode, or its pseudocode ends in a value, a `raise`, or
(never, by R142) the model's step budget. -/
theorem runCommand_cases (i : Instr) (s : State) (body : State → Reply (Option Value)) :
    (admits s.mode i = false ∧ runCommand i s body = .next (s.faulted 2 ((commandWord i).setWidth 64))) ∨
    (admits s.mode i = true ∧ runCommand i s body = finish (body s)) := by
  unfold runCommand
  cases h : admits s.mode i with
  | false => exact .inl ⟨rfl, by simp [takeFault_eq, raiseCode, raiseInfo]⟩
  | true => exact .inr ⟨rfl, by simp⟩

theorem runCommand_admitted {i : Instr} {s : State} (body : State → Reply (Option Value))
    (h : admits s.mode i = true) : runCommand i s body = finish (body s) := by simp [runCommand, h]

theorem admits_byte (i : Instr) : admits .byte i = true := by simp [admits]

theorem admits_of_not_byteOnly (m : Mode) {i : Instr} (h : byteOnly i = false) : admits m i = true := by
  simp [admits, h]

/-! ## The frame of the decoders -/

/-- `t` is `s` but for the cursor registers. -/
def OnlyCursor (s t : State) : Prop :=
  t = { s with pos := t.pos, bitoff := t.bitoff, curb := t.curb, curv := t.curv }

theorem OnlyCursor.refl (s : State) : OnlyCursor s s := rfl

theorem OnlyCursor.trans {s t u : State} (h₁ : OnlyCursor s t) (h₂ : OnlyCursor t u) : OnlyCursor s u := by
  unfold OnlyCursor at *
  rw [h₂, h₁]

theorem OnlyCursor.params {s t : State} (h : OnlyCursor s t) : t.params = s.params := by rw [h]
theorem OnlyCursor.buf {s t : State} (h : OnlyCursor s t) : t.buf = s.buf := by rw [h]
theorem OnlyCursor.mode {s t : State} (h : OnlyCursor s t) : t.mode = s.mode := by rw [h]

theorem OnlyCursor.bufByte {s t : State} (h : OnlyCursor s t) (idx : Int) : bufByte t idx = bufByte s idx :=
  bufByte_congr h.params h.buf idx

/-- A piece of a decoder: it writes the cursor registers only, and raises nothing but `OutOfRange` of an index outside
the buffer. -/
structure Decodes {α : Type} (s : State) (r : Reply α) : Prop where
  value : ∀ a t, r = .value a t → OnlyCursor s t
  raised : ∀ e t, r = .raised e t → OnlyCursor s t ∧ ∃ idx, e = .outOfRange idx ∧ bufByte s idx = none

theorem Decodes.pure {α : Type} {s t : State} (a : α) (h : OnlyCursor s t) : Decodes s (.value a t) :=
  ⟨fun _ _ e => (by cases e; exact h), fun _ _ e => (by cases e)⟩

theorem Decodes.stop {α : Type} (s : State) (f : Fault) : Decodes s (.stuck f : Reply α) :=
  ⟨fun _ _ e => (by cases e), fun _ _ e => (by cases e)⟩

theorem Decodes.bind {α β : Type} {s : State} {r : Reply α} {k : α → State → Reply β} (h : Decodes s r)
    (hk : ∀ a t, r = .value a t → OnlyCursor s t → Decodes t (k a t)) : Decodes s (r.andThen k) := by
  constructor
  · intro b u hu
    obtain ⟨a, t, hr, hkt⟩ := andThen_eq_value hu
    exact (h.value a t hr).trans ((hk a t hr (h.value a t hr)).value b u hkt)
  · intro e u hu
    obtain hr | ⟨a, t, hr, hkt⟩ := andThen_eq_raised hu
    · exact h.raised e u hr
    · have hst := h.value a t hr
      obtain ⟨htu, idx, he, hidx⟩ := (hk a t hr hst).raised e u hkt
      exact ⟨hst.trans htu, idx, he, by rw [← hst.bufByte]; exact hidx⟩

theorem Decodes.memRead (idx : Int) (s : State) : Decodes s (memRead idx s) := by
  obtain ⟨b, -, h⟩ | ⟨hn, h⟩ := memRead_cases idx s
  · rw [h]; exact .pure b (.refl s)
  · rw [h]
    exact ⟨fun _ _ e => (by cases e), fun _ _ e => (by cases e; exact ⟨.refl s, idx, rfl, hn⟩)⟩

theorem u5Loop_decodes : ∀ (left : Nat) (p : Int) (sum : U32) (s : State), Decodes s (u5Loop left p sum s)
  | 0, p, sum, s => by
    unfold u5Loop
    refine (Decodes.memRead _ s).bind fun b t _ _ => ?_
    dsimp only
    split <;> exact .pure _ rfl
  | left + 1, p, sum, s => by
    unfold u5Loop
    refine (Decodes.memRead _ s).bind fun b t _ _ => ?_
    dsimp only
    split_ifs
    · exact .pure _ rfl
    · exact .pure _ rfl
    · exact u5Loop_decodes left p _ t

theorem u5_decodes (s : State) : Decodes s (u5 s) := by
  unfold u5
  refine (Decodes.memRead _ s).bind fun b t _ _ => ?_
  split
  · exact .pure _ rfl
  · exact u5Loop_decodes _ _ _ t

theorem curA_decodes (s : State) : Decodes s (curA s) := by
  unfold curA
  split
  · exact .pure _ (.refl s)
  · exact (Decodes.memRead _ s).bind fun b t _ _ => .pure _ rfl

theorem rolloverA_decodes (s : State) : Decodes s (rolloverA s) := by
  have h0 : OnlyCursor s ((s.setBitoff 0).setPos (s.pos + 1)) := rfl
  unfold rolloverA
  dsimp only
  split
  · have h := (Decodes.memRead ((s.setBitoff 0).setPos (s.pos + 1)).pos ((s.setBitoff 0).setPos (s.pos + 1))).bind
      (k := fun b s => Reply.value () (s.loadCache b)) fun b t _ _ => .pure _ rfl
    exact ⟨fun a t e => h0.trans (h.value a t e), fun e t he => by
      obtain ⟨h1, idx, h2, h3⟩ := h.raised e t he
      exact ⟨h0.trans h1, idx, h2, by rw [← h0.bufByte]; exact h3⟩⟩
  · exact .pure _ rfl

theorem isZeroA_decodes (s : State) : Decodes s (isZeroA s) := by
  unfold isZeroA
  refine (curA_decodes s).bind fun c t _ _ => ?_
  dsimp only
  split_ifs
  · exact .pure _ (.refl t)
  · exact (rolloverA_decodes t).bind fun _ u _ _ => .pure _ (.refl u)
  · exact .pure _ rfl

theorem rawByteA_decodes (s : State) : Decodes s (rawByteA s) := by
  unfold rawByteA
  refine (curA_decodes s).bind fun c t _ _ => ?_
  split
  · exact .pure _ rfl
  · exact (Decodes.memRead _ t).bind fun n u _ _ => .pure _ rfl

theorem uVarALoop_decodes : ∀ (budget g : Nat) (result : U32) (s : State), Decodes s (uVarALoop budget g result s)
  | 0, _, _, s => .stop s _
  | budget + 1, g, result, s => by
    unfold uVarALoop
    refine (rawByteA_decodes s).bind fun b t _ _ => ?_
    split_ifs
    · exact .pure _ (.refl t)
    · exact uVarALoop_decodes budget _ _ t

theorem uVarA_decodes (s : State) : Decodes s (uVarA s) := by
  unfold uVarA
  refine (isZeroA_decodes s).bind fun z t _ _ => ?_
  split
  · exact .pure _ (.refl t)
  · exact uVarALoop_decodes _ _ _ t

theorem isZeroB_decodes (s : State) : Decodes s (isZeroB s) := by
  unfold isZeroB
  refine (Decodes.memRead _ s).bind fun c t _ _ => ?_
  split_ifs
  · exact .pure _ (.refl t)
  · exact .pure _ rfl
  · exact .pure _ rfl

theorem rawByteB_decodes (s : State) : Decodes s (rawByteB s) := by
  unfold rawByteB
  split
  · exact (Decodes.memRead _ s).bind fun c t _ _ => .pure _ rfl
  · exact (Decodes.memRead _ s).bind fun c t _ _ => (Decodes.memRead _ t).bind fun n u _ _ => .pure _ rfl

theorem uVarBLoop_decodes : ∀ (budget i : Nat) (b : Byte) (result : U32) (s : State),
    Decodes s (uVarBLoop budget i b result s)
  | 0, i, b, result, s => by
    unfold uVarBLoop
    split
    · exact .pure _ (.refl s)
    · exact .stop s _
  | budget + 1, i, b, result, s => by
    unfold uVarBLoop
    split
    · exact .pure _ (.refl s)
    · exact (rawByteB_decodes s).bind fun b t _ _ => uVarBLoop_decodes budget _ _ _ t

theorem uVarB_decodes (s : State) : Decodes s (uVarB s) := by
  unfold uVarB
  refine (isZeroB_decodes s).bind fun z t _ _ => ?_
  split
  · exact .pure _ (.refl t)
  · exact (rawByteB_decodes t).bind fun b u _ _ => uVarBLoop_decodes _ _ _ _ u

end Sys2Proof.Machine
end

