-- ==== Sys2Proof/Laws/Exec.lean ====
section
/-!
SUPPORT. Every command is `runCommand` of its pseudocode, and what a command's pseudocode writes.
-/

namespace Sys2Proof.Machine

/-- The pseudocode of a command (R80.2), as its meaning passes it to `runCommand`. -/
def bodyOf : Instr → State → Reply (Option Value)
  | .openByte a => openAs .byte a
  | .openBita a => openAs .bita a
  | .openBitb a => openAs .bitb a
  | .getpos => fun s => .value (some (valueOfInt s.pos)) s
  | .setpos a => fun s => .value none (seek (argValue s.params a) s)
  | .skip a => fun s => skipBy (argValue s.params a) s
  | .readUint => readOne valueOfUint
  | .readSint => readOne fun u => valueOfInt (decodeSign u)
  | .readBool => readOne valueOfBool
  | .readI8 => readOne valueOfI8
  | .readI16 => readOne valueOfI16
  | .readChar16 => readOne valueOfChar16
  | .readF32 => readOne fun u => valueOfUint (rev32 u)
  | .readF64 => readTwo valueOfF64
  | .readI64 => readTwo valueOfI64
  | .peek a => fun s => (memRead (argValue s.params a) s).andThen fun b s => .value (some (b.setWidth 64)) s
  | .readByte => fun s => (memRead s.pos s).andThen fun b s => .value (some (b.setWidth 64)) (s.setPos (s.pos + 1))

theorem exec_eq_runCommand (i : Instr) (s : State) : exec i s = runCommand i s (bodyOf i) := by
  cases i <;> rfl

theorem mem_byteCodecOnly (i : Instr) : i ∈ byteCodecOnly ↔ byteOnly i = true := by
  cases i <;> simp [byteOnly, byteCodecOnly]

/-- A mode rejects exactly the byte codec's commands outside `BYTE` (R66). -/
theorem admits_eq_false (m : Mode) (i : Instr) : admits m i = false ↔ m ≠ .byte ∧ i ∈ byteCodecOnly := by
  simp [admits, mem_byteCodecOnly]

/-- Everything `exec` can do (R80): reject the command for its mode, or end as its pseudocode ends. -/
theorem exec_cases (i : Instr) (s : State) :
    ((s.mode ≠ .byte ∧ i ∈ byteCodecOnly) ∧ exec i s = .next (s.faulted 2 ((commandWord i).setWidth 64))) ∨
    (¬ (s.mode ≠ .byte ∧ i ∈ byteCodecOnly) ∧ exec i s = finish (bodyOf i s)) := by
  rw [exec_eq_runCommand, ← admits_eq_false]
  rcases runCommand_cases i s (bodyOf i) with ⟨h, h'⟩ | ⟨h, h'⟩
  · exact .inl ⟨h, h'⟩
  · exact .inr ⟨by simp [h], h'⟩

/-- `t` is `s` but for the registers a command may write before it ends: the mode, the cursor, the draws. -/
def OnlyRegisters (s t : State) : Prop :=
  t = { s with mode := t.mode, pos := t.pos, bitoff := t.bitoff, curb := t.curb, curv := t.curv, draws := t.draws }

theorem OnlyCursor.onlyRegisters {s t : State} (h : OnlyCursor s t) : OnlyRegisters s t := by
  unfold OnlyCursor at h
  unfold OnlyRegisters
  rw [h]

theorem OnlyRegisters.trans {s t u : State} (h₁ : OnlyRegisters s t) (h₂ : OnlyRegisters t u) :
    OnlyRegisters s u := by
  unfold OnlyRegisters at *
  rw [h₂, h₁]

theorem OnlyRegisters.fields {s t : State} (h : OnlyRegisters s t) :
    t.params = s.params ∧ t.buf = s.buf ∧ t.flt = s.flt ∧ t.fcause = s.fcause ∧ t.finfo = s.finfo ∧
      t.inbox = s.inbox ∧ t.responses = s.responses := by
  unfold OnlyRegisters at h
  rw [h]
  simp

/-- What a command's pseudocode does, whichever command it is: it writes the mode, the cursor and the draws only,
changes the mode only in `open`, and raises `OutOfRange` of an index outside the buffer, or `PositionOverflow`. -/
structure Runs {α : Type} (s : State) (r : Reply α) : Prop where
  value : ∀ a t, r = .value a t → OnlyRegisters s t ∧ t.draws = s.draws
  raised : ∀ e t, r = .raised e t → OnlyRegisters s t ∧ t.mode = s.mode ∧
    ((∃ idx, e = .outOfRange idx ∧ bufByte s idx = none) ∨ ∃ n, e = .positionOverflow n)

theorem Decodes.runs {α : Type} {s : State} {r : Reply α} (h : Decodes s r) : Runs s r :=
  ⟨fun a t e => ⟨(h.value a t e).onlyRegisters, by rw [h.value a t e]⟩,
    fun e t he => ⟨(h.raised e t he).1.onlyRegisters, (h.raised e t he).1.mode, .inl (h.raised e t he).2⟩⟩

theorem drawOnRaise_value {α : Type} {r : Reply α} {a : α} {t : State} :
    drawOnRaise r = .value a t ↔ r = .value a t := by cases r <;> simp [drawOnRaise]

theorem drawOnRaise_raised {α : Type} {r : Reply α} {e : Raise} {t : State} :
    drawOnRaise r = .raised e t ↔ ∃ u, r = .raised e u ∧ t = drawCursor u := by
  cases r <;> simp [drawOnRaise, eq_comm]

theorem drawCursor_onlyRegisters (s : State) : OnlyRegisters s (drawCursor s) ∧ (drawCursor s).mode = s.mode :=
  ⟨rfl, rfl⟩

theorem Decodes.drawOnRaise {α : Type} {s : State} {r : Reply α} (h : Decodes s r) : Runs s (drawOnRaise r) := by
  constructor
  · intro a t e
    exact h.runs.value a t (drawOnRaise_value.1 e)
  · intro e t he
    obtain ⟨u, hu, rfl⟩ := drawOnRaise_raised.1 he
    obtain ⟨h1, h2, h3⟩ := h.runs.raised e u hu
    exact ⟨h1.trans (drawCursor_onlyRegisters u).1, h2, h3⟩

/-- The varint of any mode (R63): a value leaves only the cursor changed. -/
theorem readVarint_value {s t : State} {v : U32} (h : readVarint s = .value v t) : OnlyCursor s t := by
  unfold readVarint at h
  cases hm : s.mode <;> rw [hm] at h
  · exact (u5_decodes s).value v t h
  · exact (uVarA_decodes s).value v t (drawOnRaise_value.1 h)
  · exact (uVarB_decodes s).value v t (drawOnRaise_value.1 h)

theorem readVarint_runs (s : State) : Runs s (readVarint s) := by
  unfold readVarint
  cases s.mode
  · exact (u5_decodes s).runs
  · exact (uVarA_decodes s).drawOnRaise
  · exact (uVarB_decodes s).drawOnRaise

theorem readOne_runs (f : U32 → Value) (s : State) : Runs s (readOne f s) := by
  unfold readOne
  constructor
  · intro a t h
    obtain ⟨v, u, hv, hu⟩ := andThen_eq_value h
    cases hu
    exact (readVarint_runs s).value v _ hv
  · intro e t h
    obtain h | ⟨v, u, -, hu⟩ := andThen_eq_raised h
    · exact (readVarint_runs s).raised e t h
    · cases hu

theorem readTwo_runs (f : U32 → U32 → Value) (s : State) : Runs s (readTwo f s) := by
  unfold readTwo
  constructor
  · intro a t h
    obtain ⟨v, u, hv, hu⟩ := andThen_eq_value h
    obtain ⟨w, x, hw, hx⟩ := andThen_eq_value hu
    cases hx
    obtain ⟨h1, h2⟩ := (readVarint_runs s).value v u hv
    obtain ⟨h3, h4⟩ := (readVarint_runs u).value w _ hw
    exact ⟨h1.trans h3, h4.trans h2⟩
  · intro e t h
    obtain h | ⟨v, u, hv, hu⟩ := andThen_eq_raised h
    · exact (readVarint_runs s).raised e t h
    · have hc := readVarint_value hv
      obtain hu | ⟨w, x, -, hx⟩ := andThen_eq_raised hu
      · obtain ⟨h1, h2, h3⟩ := (readVarint_runs u).raised e t hu
        refine ⟨hc.onlyRegisters.trans h1, h2.trans hc.mode, h3.imp ?_ id⟩
        rintro ⟨idx, he, hi⟩
        exact ⟨idx, he, by rw [← hc.bufByte]; exact hi⟩
      · cases hx

theorem seek_onlyRegisters (p : Int) (s : State) : OnlyRegisters s (seek p s) ∧ (seek p s).draws = s.draws := by
  unfold seek
  split <;> exact ⟨rfl, rfl⟩

theorem skipBy_runs (n : Int) (s : State) : Runs s (skipBy n s) := by
  unfold skipBy
  split
  · exact ⟨fun _ _ h => (by cases h), fun _ _ h => (by cases h; exact ⟨rfl, rfl, .inr ⟨n, rfl⟩⟩)⟩
  · exact ⟨fun _ _ h => (by cases h; exact seek_onlyRegisters _ s), fun _ _ h => (by cases h)⟩

/-- What the pseudocode of any command does. -/
theorem bodyOf_runs (i : Instr) (s : State) : Runs s (bodyOf i s) := by
  have hopen : ∀ m a, Runs s (openAs m a s) := fun m a =>
    ⟨fun _ _ h => (by cases h; exact ⟨rfl, rfl⟩), fun _ _ h => (by cases h)⟩
  cases i with
  | openByte a => exact hopen _ a
  | openBita a => exact hopen _ a
  | openBitb a => exact hopen _ a
  | getpos => exact ⟨fun _ _ h => (by cases h; exact ⟨rfl, rfl⟩), fun _ _ h => (by cases h)⟩
  | setpos a => exact ⟨fun _ _ h => (by cases h; exact seek_onlyRegisters _ s), fun _ _ h => (by cases h)⟩
  | skip a => exact skipBy_runs _ s
  | readUint => exact readOne_runs _ s
  | readSint => exact readOne_runs _ s
  | readBool => exact readOne_runs _ s
  | readI8 => exact readOne_runs _ s
  | readI16 => exact readOne_runs _ s
  | readChar16 => exact readOne_runs _ s
  | readF32 => exact readOne_runs _ s
  | readF64 => exact readTwo_runs _ s
  | readI64 => exact readTwo_runs _ s
  | peek a =>
    refine Decodes.runs ((Decodes.memRead _ s).bind ?_)
    intro b t _ _
    exact .pure _ (.refl t)
  | readByte =>
    refine Decodes.runs ((Decodes.memRead _ s).bind ?_)
    intro b t _ _
    exact .pure _ rfl

/-- What a step does, by what the host sent next (R60, R190, R191, R8). -/
theorem step_cases (s : State) :
    (configOk s.params = false ∧ step s = .refused .badConfiguration) ∨
    (configOk s.params = true ∧ s.inbox = [] ∧ step s = .next s) ∨
    (∃ rest, configOk s.params = true ∧ s.inbox = .reset :: rest ∧ step s = .next (resetEvent (s.setInbox rest))) ∨
    (∃ cw arg rest e, configOk s.params = true ∧ s.inbox = .command cw arg :: rest ∧
      decode s.params.posW cw arg = .error e ∧
      step s = .next ((s.setInbox rest).faulted 2 (cw.setWidth 64))) ∨
    (∃ cw arg rest i, configOk s.params = true ∧ s.inbox = .command cw arg :: rest ∧
      decode s.params.posW cw arg = .ok i ∧ step s = exec i (s.setInbox rest)) := by
  unfold step fetch
  cases hc : configOk s.params with
  | false => simp
  | true =>
    cases hi : s.inbox with
    | nil => simp
    | cons e rest =>
      cases e with
      | reset => simp
      | command cw arg => cases hd : decode s.params.posW cw arg <;> simp [takeFault_eq, raiseCode, raiseInfo, hd]

/-- A run whose first step answers a next state is the rest of the run from there. -/
theorem run_of_step_next {s t : State} (h : step s = .next t) (n : Nat) :
    Host.Core.run Sys2Proof.core (n + 1) s = Host.Core.run Sys2Proof.core n t := by
  have h' : Sys2Proof.core.step s = .next t := h
  simp only [Host.Core.run, h']

end Sys2Proof.Machine
end

