-- ==== Sys2Proof/Laws/Memory.lean ====
section
/-!
SUPPORT. The buffer's list of cells: a read after a write, and that every memory operation keeps the canonical form.
-/

namespace Sys2Proof.Machine

/-- A list of cells whose indexes are above `a` has no cell at `a`. -/
theorem Memory.read_of_lt : ∀ (m : Memory) (a : Nat), (∀ c ∈ m, a < c.1) → Memory.read m a = unlistedByte
  | [], _, _ => rfl
  | (k, b) :: rest, a, h => by
    have hk : a < k := h (k, b) (by simp)
    simp only [Memory.read, if_neg (Nat.ne_of_gt hk)]
    exact Memory.read_of_lt rest a fun c hc => h c (by simp [hc])

/-- A write changes no cell below every index it may touch. -/
theorem Memory.lt_of_mem_write : ∀ (m : Memory) (a l : Nat) (b : Byte), l < a → (∀ c ∈ m, l < c.1) →
    ∀ c ∈ Memory.write m a b, l < c.1
  | [], a, l, b, hl, _, c, hc => by
    simp only [Memory.write] at hc
    split at hc <;> simp_all
  | (k, d) :: rest, a, l, b, hl, h, c, hc => by
    have hr : ∀ c ∈ rest, l < c.1 := fun c hc => h c (by simp [hc])
    simp only [Memory.write] at hc
    split_ifs at hc
    · exact h c hc
    · rcases List.mem_cons.1 hc with rfl | hc
      · exact hl
      · exact h c hc
    · exact hr c hc
    · rcases List.mem_cons.1 hc with rfl | hc
      · exact hl
      · exact hr c hc
    · rcases List.mem_cons.1 hc with rfl | hc
      · exact h (k, d) (by simp)
      · exact Memory.lt_of_mem_write rest a l b hl hr c hc

/-- Writing keeps the canonical form. -/
theorem Memory.write_wf : ∀ (m : Memory) (a : Nat) (b : Byte), Memory.wf m → Memory.wf (m.write a b)
  | [], a, b, _ => by
    simp only [Memory.write]
    split <;> simp_all [Memory.wf]
  | (k, d) :: rest, a, b, h => by
    obtain ⟨hp, hne⟩ := h
    rw [List.pairwise_cons] at hp
    obtain ⟨hk, hrest⟩ := hp
    have ih := Memory.write_wf rest a b ⟨hrest, fun c hc => hne c (by simp [hc])⟩
    simp only [Memory.write]
    split_ifs with h1 h2 h3 h4
    · exact ⟨List.pairwise_cons.2 ⟨hk, hrest⟩, hne⟩
    · refine ⟨List.pairwise_cons.2 ⟨?_, List.pairwise_cons.2 ⟨hk, hrest⟩⟩, ?_⟩
      · intro c hc
        rcases List.mem_cons.1 hc with rfl | hc
        · exact h1
        · exact Nat.lt_trans h1 (hk c hc)
      · intro c hc
        rcases List.mem_cons.1 hc with rfl | hc
        · exact h2
        · exact hne c hc
    · exact ⟨hrest, fun c hc => hne c (by simp [hc])⟩
    · subst h3
      refine ⟨List.pairwise_cons.2 ⟨hk, hrest⟩, ?_⟩
      intro c hc
      rcases List.mem_cons.1 hc with rfl | hc
      · exact h4
      · exact hne c (by simp [hc])
    · refine ⟨List.pairwise_cons.2 ⟨?_, ih.1⟩, ?_⟩
      · exact Memory.lt_of_mem_write rest a k b (by omega) hk
      · intro c hc
        rcases List.mem_cons.1 hc with rfl | hc
        · exact hne (k, d) (by simp)
        · exact ih.2 c hc

/-- A read after a write to the same index gives the byte written. -/
theorem Memory.read_write_same : ∀ (m : Memory) (a : Nat) (b : Byte), Memory.wf m → Memory.read (m.write a b) a = b
  | [], a, b, _ => by
    simp only [Memory.write]
    split <;> simp_all [Memory.read]
  | (k, d) :: rest, a, b, h => by
    obtain ⟨hp, hne⟩ := h
    rw [List.pairwise_cons] at hp
    have ih := Memory.read_write_same rest a b ⟨hp.2, fun c hc => hne c (by simp [hc])⟩
    simp only [Memory.write]
    split_ifs with h1 h2 h3 h4
    · rw [h2, Memory.read_of_lt]
      intro c hc
      rcases List.mem_cons.1 hc with rfl | hc
      · exact h1
      · exact Nat.lt_trans h1 (hp.1 c hc)
    · simp [Memory.read]
    · subst h3
      rw [h4, Memory.read_of_lt]
      exact hp.1
    · simp [Memory.read]
    · simp only [Memory.read, if_neg (Ne.symm h3)]
      exact ih

/-- A write leaves every other index alone. -/
theorem Memory.read_write_ne : ∀ (m : Memory) (a a' : Nat) (b : Byte), Memory.wf m → a' ≠ a →
    Memory.read (m.write a b) a' = Memory.read m a'
  | [], a, a', b, _, hne => by
    simp only [Memory.write]
    split <;> simp [Memory.read, Ne.symm hne]
  | (k, d) :: rest, a, a', b, h, hne => by
    obtain ⟨hp, hn⟩ := h
    rw [List.pairwise_cons] at hp
    have ih := Memory.read_write_ne rest a a' b ⟨hp.2, fun c hc => hn c (by simp [hc])⟩ hne
    simp only [Memory.write]
    split_ifs with h1 h2 h3 h4
    · rfl
    · simp [Memory.read, Ne.symm hne]
    · subst h3
      simp [Memory.read, Ne.symm hne]
    · subst h3
      simp [Memory.read, Ne.symm hne]
    · simp only [Memory.read]
      split
      · rfl
      · exact ih

/-- Placing a sequence of bytes keeps the canonical form. -/
theorem Memory.place_wf : ∀ (bs : List Byte) (m : Memory) (a : Nat), Memory.wf m → Memory.wf (m.place a bs)
  | [], _, _, h => h
  | b :: bs, m, a, h => Memory.place_wf bs (m.write a b) (a + 1) (m.write_wf a b h)

/-- The buffer right after reset is in canonical form. -/
theorem reset_memory_wf : Memory.wf State.reset.buf := by simp [State.reset, Memory.wf]

end Sys2Proof.Machine
end

