-- ==== Sys2Proof/Laws/PerInstr.lean ====
section
/-!
SUPPORT. A fact about every command as syntax, one lemma for each constructor: its word keeps the fields of
spec/30_encoding.md R61 legal.
-/

namespace Sys2Proof.Laws.LegalWord

open Sys2Proof

/-- The reserved bits are 0, the operation is not the reserved one, and `MF` is 0 but in `open`, where it is not 3 (R61,
R63, R64). -/
def Statement (i : Instr) : Prop :=
  rsvField (commandWord i) = 0 ∧ funcField (commandWord i) < 15 ∧ modeField (commandWord i) < 3 ∧
  (funcField (commandWord i) = 0 ∨ modeField (commandWord i) = 0)

theorem openByte (arg : Arg) : Statement (.openByte arg) := by simp only [Statement, commandWord]; decide
theorem openBita (arg : Arg) : Statement (.openBita arg) := by simp only [Statement, commandWord]; decide
theorem openBitb (arg : Arg) : Statement (.openBitb arg) := by simp only [Statement, commandWord]; decide
theorem getpos : Statement .getpos := by simp only [Statement, commandWord]; decide
theorem setpos (arg : Arg) : Statement (.setpos arg) := by simp only [Statement, commandWord]; decide
theorem skip (arg : Arg) : Statement (.skip arg) := by simp only [Statement, commandWord]; decide
theorem readUint : Statement .readUint := by simp only [Statement, commandWord]; decide
theorem readSint : Statement .readSint := by simp only [Statement, commandWord]; decide
theorem readBool : Statement .readBool := by simp only [Statement, commandWord]; decide
theorem readI8 : Statement .readI8 := by simp only [Statement, commandWord]; decide
theorem readI16 : Statement .readI16 := by simp only [Statement, commandWord]; decide
theorem readChar16 : Statement .readChar16 := by simp only [Statement, commandWord]; decide
theorem readF32 : Statement .readF32 := by simp only [Statement, commandWord]; decide
theorem readF64 : Statement .readF64 := by simp only [Statement, commandWord]; decide
theorem readI64 : Statement .readI64 := by simp only [Statement, commandWord]; decide
theorem peek (arg : Arg) : Statement (.peek arg) := by simp only [Statement, commandWord]; decide
theorem readByte : Statement .readByte := by simp only [Statement, commandWord]; decide

end Sys2Proof.Laws.LegalWord
end

