-- ==== Sys2Proof/Tests/Slice0.lean ====
section
/-!
SUPPORT. Tests on small states, their expected results from spec/95_test_vectors.md (named in each comment) or from the
encoding tables; and, from "Witnesses" on, for every obligation that has hypotheses, a state and operands that meet them
all together, clause by clause.
-/

namespace Sys2Proof.Machine.Tests

/-! ## Small states -/

/-- After reset, with these bytes as the buffer and this mode; set `REF` (spec/00_scope.md R10). -/
def stateOf (m : Mode) (bytes : List Byte) : State := { State.reset.withBuffer bytes with mode := m }

/-- The same with other parameters; `BUF_LEN` stays the buffer's. -/
def stateWith (p : Params) (m : Mode) (bytes : List Byte) : State :=
  { stateOf m bytes with params := { p with bufLen := bytes.length } }

/-- The last response of the state an outcome gives. -/
def response (o : Host.Outcome State Fault Refusal) : Option Response :=
  match o with
  | .next t => t.responses.getLast?
  | .fault _ => none
  | .refused _ => none

/-- `POS`, `BITOFF`, `CURB`, `CURV` of the state an outcome gives. -/
def cursor (o : Host.Outcome State Fault Refusal) : Option (Int × BitVec 3 × Byte × Bool) :=
  match o with
  | .next t => some (t.pos, t.bitoff, t.curb, t.curv)
  | .fault _ => none
  | .refused _ => none

/-- `FLT`, `FCAUSE`, `FINFO` of the state an outcome gives. -/
def faultRegister (o : Host.Outcome State Fault Refusal) : Option (Bool × BitVec 4 × BitVec 64) :=
  match o with
  | .next t => some (t.flt, t.fcause, t.finfo)
  | .fault _ => none
  | .refused _ => none

/-! ## Well-formedness, encoding, decoding (R60 to R67) -/

theorem test_wf_refuses_a_wide_argument : (Instr.setpos 0x100000000).wf 32 = false := by decide

theorem test_wf_takes_the_widest_argument : (Instr.setpos 0xFFFFFFFF).wf 32 = true := by decide

theorem test_wf_needs_no_argument : Instr.readF64.wf 2 = true := by decide

/-- R61, R63, R64: `RRRRRRRRRRMMFFFF` of the cursor commands. -/
theorem test_decode_cursor_words :
    decode 32 0b0000000000_00_0000#16 7 = .ok (.openByte 7) ∧ decode 32 0b0000000000_01_0000#16 7 = .ok (.openBita 7) ∧
    decode 32 0b0000000000_10_0000#16 7 = .ok (.openBitb 7) ∧ decode 32 0b0000000000_00_0001#16 7 = .ok .getpos ∧
    decode 32 0b0000000000_00_0010#16 7 = .ok (.setpos 7) ∧ decode 32 0b0000000000_00_0011#16 7 = .ok (.skip 7) ∧
    decode 32 0b0000000000_00_1101#16 7 = .ok (.peek 7) ∧ decode 32 0b0000000000_00_1110#16 7 = .ok .readByte := by
  decide

/-- R63: the read commands. -/
theorem test_decode_read_words :
    decode 32 0b0000000000_00_0100#16 0 = .ok .readUint ∧ decode 32 0b0000000000_00_0101#16 0 = .ok .readSint ∧
    decode 32 0b0000000000_00_0110#16 0 = .ok .readBool ∧ decode 32 0b0000000000_00_0111#16 0 = .ok .readI8 ∧
    decode 32 0b0000000000_00_1000#16 0 = .ok .readI16 ∧ decode 32 0b0000000000_00_1001#16 0 = .ok .readChar16 ∧
    decode 32 0b0000000000_00_1010#16 0 = .ok .readF32 ∧ decode 32 0b0000000000_00_1011#16 0 = .ok .readF64 ∧
    decode 32 0b0000000000_00_1100#16 0 = .ok .readI64 := by
  decide

/-- V-ILL-1 to V-ILL-4: each rejection by its name. -/
theorem test_decode_rejects :
    decode 32 0x0044 0 = .error .reservedBits ∧ decode 32 0x000F 0 = .error .reservedFunc ∧
    decode 32 0x0030 0 = .error .openModeField ∧ decode 32 0x0011 0 = .error .strayModeField := by
  decide

/-- R60: `ARG` is `POS_W` bits; the port's other bits are not seen. -/
theorem test_decode_cuts_the_argument : decode 4 0x0002 0x1F = .ok (.setpos 0xF) := by decide

theorem test_decode_table_word : decodeTableWord 16 0x0020 = some (.openBitb 0) ∧ decodeTableWord 16 0x0044 = none := by
  decide

/-- R12: `as_signed` at the ends of a 32-bit register. -/
theorem test_arg_value :
    argValue (Params.ref 0) 0x7FFFFFFF = 2147483647 ∧ argValue (Params.ref 0) 0x80000000 = -2147483648 ∧
    argValue (Params.ref 0) 0xFFFFFFFE = -2 := by
  decide

/-- R171: the step of an illegal word at reset takes the fault, and nothing else. -/
theorem test_step_takes_the_illegal_word :
    step (State.reset.withFetchWord 16 0x0044) = .next (State.reset.faulted 2 0x44) := by rfl

theorem test_step_runs_the_placed_command :
    step (State.reset.withFetchWord 16 0x0020) =
      .next { State.reset with mode := .bitb, responses := [⟨.ok, 0, none⟩] } := by rfl

/-! ## Transforms -/

/-- V-ZZ -/
theorem test_decode_sign :
    decodeSign 1 = -1 ∧ decodeSign 3 = -2 ∧ decodeSign 4 = 2 ∧ decodeSign 0xFFFFFFFE = 2147483647 ∧
    decodeSign 0xFFFFFFFF = -2147483648 := by
  decide

/-- R104's mapping at 0x7FFFFFFF, and V-F32's reversal of 0x1FC. -/
theorem test_rev32 : rev32 0x1FC = 0x3F800000 ∧ rev32 1 = 0x80000000 := by decide

/-- L2 V-B4, V-A4: shifts of 34 and 36. -/
theorem test_shl32 :
    shl32 (Params.ref 0) 1 34 = 0 ∧ shl32 { Params.ref 0 with shiftMode := .mask31 } 1 34 = 4 ∧
    shl32 { Params.ref 0 with shiftMode := .mask31 } 1 36 = 0x10 := by
  decide

/-- P2 line 13: the logical byte at offset 6 of 0x42, 0x9C is 0xA7. -/
theorem test_merge : mergeBytes 0x42 0x9C 6 = 0xA7 := by decide

/-! ## Commands -/

/-- P3 line 8: `CURB` is left stale. -/
theorem test_open_byte :
    cursor (exec (.openByte 0) { stateOf .bita [0x52] with pos := 3, bitoff := 5, curb := 0x10, curv := true }) =
      some (0, 0, 0x10, false) := by decide

/-- R81: a position outside the buffer is taken. -/
theorem test_open_bita : cursor (exec (.openBita 0xFFFFFFFF) (stateOf .byte [])) = some (-1, 0, 0, false) := by decide

/-- V-CUR-1 -/
theorem test_open_bitb :
    exec (.openBitb 16) (stateOf .byte [0xFD, 0x05]) =
      .next { stateOf .bitb [0xFD, 0x05] with pos := 16, responses := [⟨.ok, 0, none⟩] } := by rfl

/-- V-CUR-5 -/
theorem test_getpos :
    response (exec .getpos { stateOf .byte [0x01] with pos := -2 }) = some ⟨.ok, 0, some 0xFFFFFFFFFFFFFFFE⟩ := by
  decide

/-- V-B7: `setpos` keeps `BITOFF` -/
theorem test_setpos_keeps_bitoff :
    cursor (exec (.setpos 2) { stateOf .bitb [0x42, 0x80, 0x85] with bitoff := 1 }) = some (2, 1, 0, false) := by decide

/-- V-B7 with `SETPOS_CLEARS_BITOFF = true` -/
theorem test_setpos_clears_bitoff :
    cursor (exec (.setpos 2)
      { stateWith { Params.ref 0 with setposClearsBitoff := true } .bitb [0x42, 0x80, 0x85] with bitoff := 1 }) =
      some (2, 0, 0, false) := by decide

/-- V-OVF-1 -/
theorem test_skip_overflows :
    exec (.skip 1) { State.reset with pos := 0x7FFFFFFF } =
      .next (State.faulted { State.reset with pos := 0x7FFFFFFF } 3 1) := by rfl

/-- V-OVF-2 -/
theorem test_skip_back :
    cursor (exec (.skip 0x80000001) { State.reset with pos := 0x7FFFFFFF }) = some (0, 0, 0, false) := by decide

/-- V-CUR-3: `peek -1` -/
theorem test_peek_before_the_buffer :
    faultRegister (exec (.peek 0xFFFFFFFF) (stateOf .byte [0xFD, 0x05])) = some (true, 1, 0xFFFFFFFFFFFFFFFF) := by
  decide

/-- V-CUR-3: `peek 1` -/
theorem test_peek : response (exec (.peek 1) (stateOf .bita [0xFD, 0x05])) = some ⟨.ok, 0, some 0x05⟩ := by decide

/-- V-CUR-4: the second of three -/
theorem test_read_byte :
    cursor (exec .readByte { stateOf .byte [0xFD, 0x05] with pos := 1 }) = some (2, 0, 0, false) := by decide

/-- V-ILL-5 -/
theorem test_read_byte_in_bitb :
    faultRegister (exec .readByte (stateOf .bitb [1, 1, 1, 1])) = some (true, 2, 0xE) := by decide

/-- V-U5-11: an excluded fifth byte is not consumed -/
theorem test_read_uint_excluded :
    exec .readUint (stateOf .byte [0xFF, 0xFF, 0xFF, 0xFF, 0x00]) =
      .next { stateOf .byte [0xFF, 0xFF, 0xFF, 0xFF, 0x00] with
        pos := 4, responses := [⟨.ok, 0, some 0x0408207E⟩] } := by rfl

/-- V-A1: 70000 in `BITA` -/
theorem test_read_uint_bita :
    exec .readUint (stateOf .bita [0xB8, 0x42, 0x88, 0x80, 0x80]) =
      .next { stateOf .bita [0xB8, 0x42, 0x88, 0x80, 0x80] with
        pos := 3, bitoff := 1, curb := 0x80, curv := true, responses := [⟨.ok, 0, some 0x11170⟩] } := by rfl

/-- V-ZZ -/
theorem test_read_sint :
    response (exec .readSint (stateOf .byte [0xC0, 0xFE, 0xFD, 0xFD, 0xFD])) =
      some ⟨.ok, 0, some 0xFFFFFFFF80000000⟩ := by decide

/-- V-A3: marker 1, group 0 -/
theorem test_read_bool_bita :
    exec .readBool (stateOf .bita [0x80, 0x00]) =
      .next { stateOf .bita [0x80, 0x00] with
        pos := 1, bitoff := 1, curb := 0, curv := true, responses := [⟨.ok, 0, some 0⟩] } := by rfl

/-- V-NAR -/
theorem test_read_bool : response (exec .readBool (stateOf .byte [0xC0, 0x02])) = some ⟨.ok, 0, some 1⟩ := by decide

/-- V-B3 -/
theorem test_read_i8_bitb :
    exec .readI8 (stateOf .bitb [0xC0, 0x02]) =
      .next { stateOf .bitb [0xC0, 0x02] with pos := 2, responses := [⟨.ok, 0, some 0xFFFFFFFFFFFFFF80⟩] } := by rfl

/-- V-NAR: `u = 0x100` -/
theorem test_read_i8 : response (exec .readI8 (stateOf .byte [0xC1, 0x02])) = some ⟨.ok, 0, some 0⟩ := by decide

/-- V-NAR: the sign decode comes before the narrowing -/
theorem test_read_i16 :
    response (exec .readI16 (stateOf .byte [0xC1, 0xFE, 0x0D])) = some ⟨.ok, 0, some 0xFFFFFFFFFFFF8000⟩ := by decide

/-- V-NAR -/
theorem test_read_char16 :
    response (exec .readChar16 (stateOf .byte [0xC0, 0xFE, 0x1D])) = some ⟨.ok, 0, some 0xFFFF⟩ := by decide

/-- V-F32: 1.0 -/
theorem test_read_f32 :
    response (exec .readF32 (stateOf .byte [0xFD, 0x05])) = some ⟨.ok, 0, some 0x3F800000⟩ := by decide

/-- V-ORD: the high half first -/
theorem test_read_f64 :
    response (exec .readF64 (stateOf .byte [0x03, 0x05])) = some ⟨.ok, 0, some 0x4000000020000000⟩ := by decide

/-- V-CMP: the first half stays committed -/
theorem test_read_f64_second_half_faults :
    exec .readF64 (stateOf .byte [0x03, 0xC0]) =
      .next (State.faulted { stateOf .byte [0x03, 0xC0] with pos := 1 } 1 2) := by rfl

/-- V-ORD: the low half first -/
theorem test_read_i64 :
    response (exec .readI64 (stateOf .byte [0x03, 0x05])) = some ⟨.ok, 0, some 0x0000000200000001⟩ := by decide

/-- V-I64: -1, then 2^31 - 1 -/
theorem test_read_i64_wide :
    response (exec .readI64 (stateOf .byte [0x02, 0xFF, 0xFD, 0xFD, 0xFD, 0xFD])) =
      some ⟨.ok, 0, some 0x7FFFFFFFFFFFFFFF⟩ := by rfl

/-! ## The decoders under other parameters -/

/-- V-U5-15: `LEAD_CMP = UNSIGNED` -/
theorem test_u5_unsigned_lead :
    u5 (stateWith { Params.ref 0 with leadCmp := .unsigned } .byte [0x00, 0x05]) =
      .value 0xFF ((stateWith { Params.ref 0 with leadCmp := .unsigned } .byte [0x00, 0x05]).setPos 2) := by rfl

/-- V-A4: `A_CONSUME_ON_NONZERO = false` -/
theorem test_uvara_marker_kept :
    uVarA (stateWith { Params.ref 0 with aConsumeOnNonzero := false } .bita [0x82, 0x80, 0x00]) =
      .value 2 { stateWith { Params.ref 0 with aConsumeOnNonzero := false } .bita [0x82, 0x80, 0x00] with
        pos := 1, curb := 0x82 } := by rfl

/-- V-A5: the last bit of the buffer with `A_EAGER_ROLLOVER = false` -/
theorem test_is_zero_a_lazy :
    isZeroA { stateWith { Params.ref 0 with aEagerRollover := false } .bita [0x00] with bitoff := 7 } =
      .value true { stateWith { Params.ref 0 with aEagerRollover := false } .bita [0x00] with pos := 1 } := by rfl

/-- R142: the cap stops the loop after its group, as if it did not go on (the buffer of V-B1's 64, capped at 1). -/
theorem test_uvarb_cap :
    uVarB (stateWith { Params.ref 0 with bpMaxGroups := some 1 } .bitb [0xC0, 0x01]) =
      .value 0 { stateWith { Params.ref 0 with bpMaxGroups := some 1 } .bitb [0xC0, 0x01] with pos := 1 } := by rfl

/-! ## Witnesses: encoding and steps -/

/-- A state with one command pending: what the hypotheses on the configuration and the port ask for. -/
def sending (m : Mode) (bytes : List Byte) (cw : CommandWord) (arg : Arg) : State :=
  (stateOf m bytes).withNextEvent (.command cw arg)

theorem witness_RoundTripOfEveryCommand :
    (Instr.peek 0xFFFFFFFF).wf 32 = true ∧ decode 32 0x000D 0x1FFFFFFFF = .ok (.peek 0xFFFFFFFF) ∧
    (Instr.peek 0xFFFFFFFF).arg? = some 0xFFFFFFFF := by decide

theorem witness_sending :
    configOk (sending .bitb [0xC0] 0x0044 7).params = true ∧
    (sending .bitb [0xC0] 0x0044 7).inbox = .command 0x0044 7 :: [] := ⟨by rfl, by rfl⟩

theorem witness_IllegalWordsFaultWithNoOtherEffect :
    IllegalIn .byte 0x0040 ∧ IllegalIn .byte 0x000F ∧ IllegalIn .byte 0x0030 ∧ IllegalIn .byte 0x001E ∧
    IllegalIn (sending .bita [] 0x0005 0).mode 0x0005 ∧ IllegalIn (sending .bitb [] 0x000E 0).mode 0x000E ∧
    ¬ IllegalIn (sending .byte [] 0x000E 0).mode 0x000E ∧ ¬ IllegalIn (sending .bita [] 0x0020 0).mode 0x0020 ∧
    configOk (sending .bita [] 0x0005 0).params = true := by
  unfold IllegalIn
  refine ⟨?_, ?_, ?_, ?_, ?_, ?_, ?_, ?_, ?_⟩ <;> decide

theorem witness_ModeAdmission :
    ((stateOf .bita []).mode ≠ .byte ∧ Instr.readSint ∈ byteCodecOnly) ∧
    ¬ ((stateOf .byte []).mode ≠ .byte ∧ Instr.readSint ∈ byteCodecOnly) ∧
    ¬ ((stateOf .bitb []).mode ≠ .byte ∧ Instr.readI8 ∈ byteCodecOnly) := by decide

theorem witness_UnusedArgumentIsIgnored :
    decode (stateOf .byte []).params.posW 0x0004 0 = .ok .readUint ∧ Instr.readUint.arg? = none := by decide

theorem witness_ArgumentIsReadAsSigned : configOk (Params.ref 0x7FFFFFFF) = true := by rfl

theorem witness_StepRunsTheDecodedCommand :
    configOk (sending .bitb [0xC0] 0x0003 7).params = true ∧
    (sending .bitb [0xC0] 0x0003 7).inbox = .command 0x0003 7 :: [] ∧
    decode (sending .bitb [0xC0] 0x0003 7).params.posW 0x0003 7 = .ok (.skip 7) := ⟨by rfl, by rfl, by rfl⟩

theorem witness_NoEventChangesNothing :
    configOk (stateOf .byte [1]).params = true ∧ (stateOf .byte [1]).inbox = [] := ⟨by rfl, by rfl⟩

/-- `L` one above the window of R8, and a buffer one byte longer than `POS` can index. -/
theorem witness_BrokenConfigurationIsRefused :
    (let p := (stateWith (Params.ofOpen 1 256 6 0) .byte []).params
     ¬ (p.x ≤ 255 ∧ 1 ≤ p.l ∧ (p.l : Int) ≤ 256 - p.x ∧ 1 ≤ p.lgH ∧ p.lgH ≤ 7 ∧ 2 ≤ p.posW ∧ p.posW ≤ 62 ∧
       (p.bufLen : Int) ≤ 2 ^ (p.posW - 1) - 1)) ∧
    (let p := (stateWith { Params.ref 0 with posW := 2 } .byte [1, 1]).params
     ¬ (p.x ≤ 255 ∧ 1 ≤ p.l ∧ (p.l : Int) ≤ 256 - p.x ∧ 1 ≤ p.lgH ∧ p.lgH ≤ 7 ∧ 2 ≤ p.posW ∧ p.posW ≤ 62 ∧
       (p.bufLen : Int) ≤ 2 ^ (p.posW - 1) - 1)) := by decide

/-- Every constraint of R8 at its end. -/
theorem witness_EveryOtherStepGoesOn :
    let p : Params := { Params.ofOpen 255 1 7 1 with posW := 2, bpMaxGroups := some 1 }
    (p.x ≤ 255 ∧ 1 ≤ p.l ∧ (p.l : Int) ≤ 256 - p.x ∧ 1 ≤ p.lgH ∧ p.lgH ≤ 7 ∧ 2 ≤ p.posW ∧ p.posW ≤ 62 ∧
      (p.bufLen : Int) ≤ 2 ^ (p.posW - 1) - 1) ∧ p.bpMaxGroups ≠ some 0 ∧
    (stateWith p .byte [0xFF]).params = p := by decide

theorem witness_ResetEventRestoresTheRegisters :
    configOk ((stateOf .bita [1]).withNextEvent .reset).params = true ∧
    ((stateOf .bita [1]).withNextEvent .reset).inbox = .reset :: [] := ⟨by rfl, by rfl⟩

/-! ## Witnesses: the cursor commands and the buffer -/

/-- The sum at the ends of the register, and one past each. -/
theorem witness_SkipMovesOrOverflows :
    let s : Int → State := fun p => { State.reset with pos := p }
    ((s 0x7FFFFFFE).pos + argValue (s 0x7FFFFFFE).params 1 ≤ 2 ^ ((s 0x7FFFFFFE).params.posW - 1) - 1) ∧
    (2 ^ ((s 0x7FFFFFFF).params.posW - 1) - 1 < (s 0x7FFFFFFF).pos + argValue (s 0x7FFFFFFF).params 1) ∧
    (-(2 : Int) ^ ((s 0).params.posW - 1) ≤ (s 0).pos + argValue (s 0).params 0x80000000) ∧
    ((s (-1)).pos + argValue (s (-1)).params 0x80000000 < -(2 : Int) ^ ((s (-1)).params.posW - 1)) := by decide

theorem witness_SkipIsSetposOfTheSum :
    configOk State.reset.params = true ∧
    argValue State.reset.params 0xFFFFFFFE = State.reset.pos + argValue State.reset.params 0xFFFFFFFE := by decide

/-- The first and the last index of a buffer of two bytes, and the indexes next to them. -/
theorem witness_PeekReadsWithoutMoving :
    let s := stateOf .bita [0xFD, 0x05]
    (0 ≤ argValue s.params 0 ∧ argValue s.params 0 < s.params.bufLen) ∧
    (0 ≤ argValue s.params 1 ∧ argValue s.params 1 < s.params.bufLen) ∧
    ¬ (0 ≤ argValue s.params 2 ∧ argValue s.params 2 < s.params.bufLen) ∧
    ¬ (0 ≤ argValue s.params 0xFFFFFFFF ∧ argValue s.params 0xFFFFFFFF < s.params.bufLen) := by decide

theorem witness_ReadByteAdvances :
    let s : Int → State := fun p => { stateOf .byte [0xFD, 0x05] with pos := p }
    (s 1).mode = .byte ∧ (0 ≤ (s 1).pos ∧ (s 1).pos < (s 1).params.bufLen) ∧
    ¬ (0 ≤ (s 2).pos ∧ (s 2).pos < (s 2).params.bufLen) ∧ (stateOf .bita []).mode ≠ .byte := by decide

theorem witness_PlacedBytesAreRead : (-1 : Int) < 0 := by decide

/-! ## Witnesses: BYTE mode -/

/-- A final lead byte (V-U5-3), and an excluded one with `LEAD_CMP = SIGNED` (V-U5-14). -/
theorem witness_one_byte_varints :
    VarintAt (stateOf .byte [0xBF]) (stateOf .byte [0xBF]).pos 0xBE 1 ∧
    VarintAt (stateOf .byte [0x00]) (stateOf .byte [0x00]).pos 0xFFFFFFFF 1 := by
  refine ⟨⟨0xBF, [], bytesAt_cons rfl (bytesAt_nil _ _), rfl, by decide, .inl ⟨?_, rfl⟩⟩,
    ⟨0x00, [], bytesAt_cons rfl (bytesAt_nil _ _), rfl, by decide, .inl ⟨?_, rfl⟩⟩⟩ <;>
  · unfold LeadEnds IsFinal IsExcluded
    decide

/-- Ended by a final byte (V-U5-5), by an excluded byte (V-U5-12), and by the cap (V-U5-8). -/
theorem witness_longer_varints :
    VarintAt (stateOf .byte [0xC0, 0x02]) (stateOf .byte [0xC0, 0x02]).pos 0xFF 2 ∧
    VarintAt (stateOf .byte [0xC0, 0x00]) (stateOf .byte [0xC0, 0x00]).pos 0xBF 1 ∧
    VarintAt (stateOf .byte [0xFF, 0xFF, 0xFF, 0xFF, 0xFF]) (stateOf .byte [0xFF, 0xFF, 0xFF, 0xFF, 0xFF]).pos
      0x0208207E 5 := by
  refine ⟨⟨0xC0, [0x02], bytesAt_cons rfl (bytesAt_cons rfl (bytesAt_nil _ _)), rfl, by decide, .inr ⟨?_, ?_⟩⟩,
    ⟨0xC0, [], bytesAt_cons rfl (bytesAt_nil _ _), rfl, by decide, .inr ⟨?_, ?_⟩⟩,
    ⟨0xFF, [0xFF, 0xFF, 0xFF, 0xFF], bytesAt_cons rfl (bytesAt_cons rfl (bytesAt_cons rfl (bytesAt_cons rfl
      (bytesAt_cons rfl (bytesAt_nil _ _))))), rfl, by decide, .inr ⟨?_, ?_⟩⟩⟩
  · unfold LeadEnds IsFinal IsExcluded
    decide
  · exact .inr (.inl ⟨[], 0x02, rfl, by simp, by decide, by unfold IsFinal; decide⟩)
  · unfold LeadEnds IsFinal IsExcluded
    decide
  · exact .inl ⟨by simp, by decide, 0x00, rfl, by unfold IsExcluded; decide⟩
  · unfold LeadEnds IsFinal IsExcluded
    decide
  · exact .inr (.inr ⟨by unfold IsContinuation; decide, rfl⟩)

/-- No byte at all (V-U5-18), and a continuation byte with none behind it (V-U5-16). -/
theorem witness_runs_off :
    VarintRunsOff (stateOf .byte []) (stateOf .byte []).pos 0 ∧
    VarintRunsOff (stateOf .byte [0xC0]) (stateOf .byte [0xC0]).pos 1 := by
  refine ⟨.inl ⟨rfl, rfl⟩, .inr ⟨0xC0, [], bytesAt_cons rfl (bytesAt_nil _ _), ?_, by simp, by decide, rfl, rfl⟩⟩
  unfold LeadEnds IsFinal IsExcluded
  decide

/-- The other hypotheses of the nine reads: `ReadUintInByteMode` to `ReadI8InByteMode`, `ReadI16InByteMode` to
`ReadF32InByteMode`, whose varints are the ones above; and of `ByteModeOnly`. -/
theorem witness_ByteModeRead :
    configOk (stateOf .byte [0xC0, 0x02]).params = true ∧ (stateOf .byte [0xC0, 0x02]).mode = .byte ∧
    configOk (stateOf .byte [0xC0]).params = true ∧ (stateOf .byte [0xC0]).mode = .byte ∧
    (stateOf .bita []).mode ≠ .byte := by decide

/-- `ReadF64InByteMode`, `ReadI64InByteMode`: a second varint behind the first (V-ORD), and one that runs off
(V-CMP). -/
theorem witness_ByteModeReadTwo :
    VarintAt (stateOf .byte [0x03, 0x05]) (stateOf .byte [0x03, 0x05]).pos 2 1 ∧
    VarintAt (stateOf .byte [0x03, 0x05]) ((stateOf .byte [0x03, 0x05]).pos + (1 : Nat)) 4 1 ∧
    VarintAt (stateOf .byte [0x03, 0xC0]) (stateOf .byte [0x03, 0xC0]).pos 2 1 ∧
    VarintRunsOff (stateOf .byte [0x03, 0xC0]) ((stateOf .byte [0x03, 0xC0]).pos + (1 : Nat)) 2 := by
  refine ⟨⟨0x03, [], bytesAt_cons rfl (bytesAt_nil _ _), rfl, by decide, .inl ⟨?_, rfl⟩⟩,
    ⟨0x05, [], bytesAt_cons rfl (bytesAt_nil _ _), rfl, by decide, .inl ⟨?_, rfl⟩⟩,
    ⟨0x03, [], bytesAt_cons rfl (bytesAt_nil _ _), rfl, by decide, .inl ⟨?_, rfl⟩⟩,
    .inr ⟨0xC0, [], bytesAt_cons rfl (bytesAt_nil _ _), ?_, by simp, by decide, rfl, rfl⟩⟩ <;>
  · unfold LeadEnds IsFinal IsExcluded
    decide

theorem witness_EveryIndexHoldsAVarintOrRunsOff : configOk (stateOf .byte [0xC0]).params = true := by rfl

/-- `SIGNED`; `UNSIGNED` with nothing behind the lead byte; `UNSIGNED` with an excluded byte behind it. -/
theorem witness_LeadByteBelowX :
    let s := stateOf .byte [0x00]
    let t := stateWith { Params.ref 0 with leadCmp := .unsigned } .byte [0x00]
    let u := stateWith { Params.ref 0 with leadCmp := .unsigned } .byte [0x00, 0x00]
    (configOk s.params = true ∧ s.mode = .byte ∧ bufByte s s.pos = some 0 ∧ 0 < s.params.x ∧
      s.params.leadCmp = .signed) ∧
    (configOk t.params = true ∧ t.mode = .byte ∧ bufByte t t.pos = some 0 ∧ t.params.leadCmp = .unsigned ∧
      bufByte t (t.pos + 1) = none) ∧
    (configOk u.params = true ∧ u.mode = .byte ∧ bufByte u u.pos = some 0 ∧ u.params.leadCmp = .unsigned ∧
      bufByte u (u.pos + 1) = some 0) := by decide

theorem witness_DecodeSignIsTheZigZagInverse :
    (0xFFFFFFFE : U32).getLsbD 0 = false ∧ (0xFFFFFFFF : U32).getLsbD 0 = true ∧
    -(2 : Int) ^ 31 ≤ -2147483648 ∧ (2147483647 : Int) < 2 ^ 31 := by decide

theorem witness_Rev32ReversesBits : (31 : Nat) < 32 := by decide

theorem witness_ByteReadsLeaveTheBitRegisters :
    (stateOf .byte []).mode = .byte ∧ Instr.readI64 ∈ varintReads := by decide

/-! ## Witnesses: the bit-packed modes -/

theorem witness_MergeIsTheNextEightBits : (7 : Nat) < 8 := by decide

theorem witness_GroupShiftPlacesBits :
    (31 : Nat) < 32 ∧ (Params.ref 0).shiftMode = .truncate ∧
    ({ Params.ref 0 with shiftMode := .mask31 } : Params).shiftMode = .mask31 := by decide

theorem witness_BitbZeroMarkerIsOneBit :
    SharedRead .readBool (fun u => if u = 0 then 0 else 1) ∧ (stateOf .bitb [0x42]).mode = .bitb ∧
    streamBit (stateOf .bitb [0x42]) (bitCursor (stateOf .bitb [0x42])) = some false :=
  ⟨.bool, by rfl, by rfl⟩

/-- V-B1: 64 at bit 0, two groups; V-B2: 100 at bit 3. -/
theorem witness_BitbValueIsItsGroups :
    SharedRead .readUint (fun u => u.setWidth 64) ∧
    (let s := stateOf .bitb [0xC0, 0x01]
     s.mode = .bitb ∧ streamBit s (bitCursor s) = some true ∧ GroupsAt s (bitCursor s) [0xC0, 0x01] ∧
       GroupsEnd s.params [0xC0, 0x01]) ∧
    (let s := { stateOf .bitb [0x1C, 0x80, 0x20] with bitoff := 3 }
     s.mode = .bitb ∧ streamBit s (bitCursor s) = some true ∧ GroupsAt s (bitCursor s) [0xE4, 0x01] ∧
       GroupsEnd s.params [0xE4, 0x01]) := by
  refine ⟨.uint, ⟨rfl, rfl, groupsAt_cons ?_ (groupsAt_cons ?_ (groupsAt_nil _ _)), groupsEnd_two ?_ ?_⟩,
    ⟨rfl, rfl, groupsAt_cons ?_ (groupsAt_cons ?_ (groupsAt_nil _ _)), groupsEnd_two ?_ ?_⟩⟩ <;>
  first
    | (unfold LogicalByteAt; decide)
    | (unfold GoesOn; decide)

/-- Inside a byte; at its end without and with eager rollover. The first with a valid cache. -/
theorem witness_BitaZeroMarkerIsOneBit :
    let s : State := { stateOf .bita [0x00, 0x80] with bitoff := 6, curv := true }
    let t : State := { stateWith { Params.ref 0 with aEagerRollover := false } .bita [0x00] with bitoff := 7 }
    let u : State := { stateOf .bita [0x00, 0x80] with bitoff := 7 }
    SharedRead .readI8 (fun u => (u.setWidth 8).signExtend 64) ∧
    (s.mode = .bita ∧ s.Coherent ∧ bufByte s s.pos = some 0 ∧ (0 : Byte).getLsbD (7 - s.bitoff.toNat) = false ∧
      s.bitoff ≠ 7) ∧
    (t.mode = .bita ∧ t.Coherent ∧ bufByte t t.pos = some 0 ∧ t.bitoff = 7 ∧ t.params.aEagerRollover = false) ∧
    (u.mode = .bita ∧ u.Coherent ∧ bufByte u u.pos = some 0 ∧ u.bitoff = 7 ∧ u.params.aEagerRollover = true ∧
      bufByte u (u.pos + 1) = some 0x80) := by
  refine ⟨.i8, ⟨rfl, fun _ => rfl, rfl, rfl, by decide⟩, ⟨rfl, coherent_of_curv rfl, rfl, rfl, rfl⟩,
    ⟨rfl, coherent_of_curv rfl, rfl, rfl, rfl, rfl⟩⟩

/-- V-A1: 5 behind its marker, ending inside a byte; V-A4: the marker kept, ending at a byte's end. -/
theorem witness_BitaValueIsItsGroups :
    SharedRead .readUint (fun u => u.setWidth 64) ∧
    (let s := stateOf .bita [0x82, 0x80, 0x80]
     s.mode = .bita ∧ s.Coherent ∧ streamBit s (bitCursor s) = some true ∧
       (1 : Int) = bitCursor s + (if s.params.aConsumeOnNonzero = true then 1 else 0) ∧
       (9 : Int) = 1 + 8 * ([0x05] : List Byte).length ∧ GroupsAt s 1 [0x05] ∧ GroupsEnd s.params [0x05]) ∧
    (let s := stateWith { Params.ref 0 with aConsumeOnNonzero := false } .bita [0x82, 0x80, 0x00]
     s.mode = .bita ∧ s.Coherent ∧ streamBit s (bitCursor s) = some true ∧
       (0 : Int) = bitCursor s + (if s.params.aConsumeOnNonzero = true then 1 else 0) ∧
       (8 : Int) = 0 + 8 * ([0x82] : List Byte).length ∧ GroupsAt s 0 [0x82] ∧ GroupsEnd s.params [0x82]) := by
  refine ⟨.uint, ⟨rfl, coherent_of_curv rfl, rfl, by decide, by decide, groupsAt_cons ?_ (groupsAt_nil _ _),
    groupsEnd_one ?_⟩, ⟨rfl, coherent_of_curv rfl, rfl, by decide, by decide,
    groupsAt_cons ?_ (groupsAt_nil _ _), groupsEnd_one ?_⟩⟩ <;>
  first
    | (unfold LogicalByteAt; decide)
    | (unfold GoesOn; decide)

theorem witness_BitReadFaultLeavesDraws :
    configOk (stateOf .bitb [0xC0]).params = true ∧ SharedRead .readUint (fun u => u.setWidth 64) ∧
    (stateOf .bitb [0xC0]).mode ≠ .byte ∧
    ∃ t, exec .readUint (stateOf .bitb [0xC0]) = .next t ∧
      t.responses = (stateOf .bitb [0xC0]).responses ++ [{ status := .fault, cause := 1, value := none }] :=
  ⟨by rfl, .uint, by decide, _, by rfl, by rfl⟩

/-- V-B6: at a byte's end; V-B5: inside a byte. -/
theorem witness_BitbRunsOffTheBuffer :
    SharedRead .readUint (fun u => u.setWidth 64) ∧
    (let s := stateOf .bitb [0xC0]
     s.mode = .bitb ∧ streamBit s (bitCursor s) = some true ∧ GroupsAt s (bitCursor s) [0xC0] ∧
       (∀ (j : Nat) (b : Byte), ([0xC0] : List Byte)[j]? = some b → GoesOn s.params j b) ∧
       (8 : Int) = bitCursor s + 8 * ([0xC0] : List Byte).length ∧
       bufByte s (if (8 : Int) % 8 = 0 then 8 / 8 else 8 / 8 + 1) = none) ∧
    (let s := { stateOf .bitb [0x10] with bitoff := 3 }
     s.mode = .bitb ∧ streamBit s (bitCursor s) = some true ∧ GroupsAt s (bitCursor s) [] ∧
       (∀ (j : Nat) (b : Byte), ([] : List Byte)[j]? = some b → GoesOn s.params j b) ∧
       (3 : Int) = bitCursor s + 8 * ([] : List Byte).length ∧
       bufByte s (if (3 : Int) % 8 = 0 then 3 / 8 else 3 / 8 + 1) = none) := by
  refine ⟨.uint, ⟨rfl, rfl, groupsAt_cons ?_ (groupsAt_nil _ _), goesOn_one ?_, rfl, rfl⟩,
    ⟨rfl, rfl, groupsAt_nil _ _, goesOn_none _, rfl, rfl⟩⟩
  · unfold LogicalByteAt
    decide
  · unfold GoesOn
    decide

/-- V-A6: inside a byte; a marker that is the last bit of the buffer; the marker kept, at a byte's end. -/
theorem witness_BitaRunsOffTheBuffer :
    SharedRead .readUint (fun u => u.setWidth 64) ∧
    (let s := stateOf .bita [0x85]
     s.mode = .bita ∧ s.Coherent ∧ streamBit s (bitCursor s) = some true ∧
       (1 : Int) = bitCursor s + (if s.params.aConsumeOnNonzero = true then 1 else 0) ∧ GroupsAt s 1 [] ∧
       (∀ (j : Nat) (b : Byte), ([] : List Byte)[j]? = some b → GoesOn s.params j b) ∧
       (1 : Int) = 1 + 8 * ([] : List Byte).length ∧
       bufByte s (if (1 : Int) % 8 = 0 then 1 / 8 else 1 / 8 + 1) = none) ∧
    (let s := { stateOf .bita [0x01] with bitoff := 7 }
     s.mode = .bita ∧ s.Coherent ∧ streamBit s (bitCursor s) = some true ∧
       (8 : Int) = bitCursor s + (if s.params.aConsumeOnNonzero = true then 1 else 0) ∧ GroupsAt s 8 [] ∧
       (∀ (j : Nat) (b : Byte), ([] : List Byte)[j]? = some b → GoesOn s.params j b) ∧
       (8 : Int) = 8 + 8 * ([] : List Byte).length ∧
       bufByte s (if (8 : Int) % 8 = 0 then 8 / 8 else 8 / 8 + 1) = none) ∧
    (let s := stateWith { Params.ref 0 with aConsumeOnNonzero := false } .bita [0xC0]
     s.mode = .bita ∧ s.Coherent ∧ streamBit s (bitCursor s) = some true ∧
       (0 : Int) = bitCursor s + (if s.params.aConsumeOnNonzero = true then 1 else 0) ∧ GroupsAt s 0 [0xC0] ∧
       (∀ (j : Nat) (b : Byte), ([0xC0] : List Byte)[j]? = some b → GoesOn s.params j b) ∧
       (8 : Int) = 0 + 8 * ([0xC0] : List Byte).length ∧
       bufByte s (if (8 : Int) % 8 = 0 then 8 / 8 else 8 / 8 + 1) = none) := by
  refine ⟨.uint,
    ⟨rfl, coherent_of_curv rfl, rfl, rfl, groupsAt_nil _ _, goesOn_none _, rfl, rfl⟩,
    ⟨rfl, coherent_of_curv rfl, rfl, rfl, groupsAt_nil _ _, goesOn_none _, rfl, rfl⟩,
    ⟨rfl, coherent_of_curv rfl, rfl, rfl, groupsAt_cons ?_ (groupsAt_nil _ _), goesOn_one ?_, rfl, rfl⟩⟩
  · unfold LogicalByteAt
    decide
  · unfold GoesOn
    decide

theorem witness_MarkerOutsideTheBufferFaults :
    SharedRead .readUint (fun u => u.setWidth 64) ∧ (stateOf .bita []).mode ≠ .byte ∧ (stateOf .bita []).Coherent ∧
    bufByte (stateOf .bita []) (stateOf .bita []).pos = none :=
  ⟨.uint, by decide, coherent_of_curv rfl, by rfl⟩

/-- V-A5 -/
theorem witness_EagerRolloverFaultsAtTheEnd :
    let s : State := { stateOf .bita [0x00] with bitoff := 7, curv := true }
    SharedRead .readUint (fun u => u.setWidth 64) ∧ s.mode = .bita ∧ s.Coherent ∧ s.params.aEagerRollover = true ∧ 0 ≤ s.pos ∧
    bitCursor s + 1 = 8 * s.params.bufLen ∧ streamBit s (bitCursor s) = some false :=
  ⟨.uint, rfl, fun _ => rfl, rfl, by decide, rfl, rfl⟩

/-- P3 line 3: a valid cache. -/
theorem witness_CacheHitEqualsAFreshRead :
    let s : State := { stateOf .bita [0x52, 0x00] with bitoff := 1, curb := 0x52, curv := true }
    SharedRead .readUint (fun u => u.setWidth 64) ∧ s.mode = .bita ∧ s.Coherent ∧ s.curv = true :=
  ⟨.uint, rfl, fun _ => rfl, rfl⟩

theorem witness_StaleCacheByteIsNeverRead : (stateOf .bita [0x52]).curv = false := by rfl

/-! ## Witnesses: the whole machine -/

/-- A success, a first fault, and a later fault. -/
theorem witness_FaultRegisterKeepsTheFirstFault :
    (∃ t, exec .getpos State.reset = .next t ∧ t.flt = false) ∧
    (∃ t, exec .readByte State.reset = .next t ∧ t.flt = true ∧ t.fcause = 1) ∧
    (∃ t, exec .readByte (State.reset.faulted 2 0x44) = .next t ∧ t.fcause = 2) :=
  ⟨⟨_, by rfl, by rfl⟩, ⟨_, by rfl, by rfl, by rfl⟩, ⟨_, by rfl, by rfl⟩⟩

/-- A fault of a bit mode's own read, of a single read, and of a compound one. -/
theorem witness_FaultLeavesTheRegisters :
    (∃ t, exec .readUint (stateOf .bita []) = .next t ∧
      t.responses = (stateOf .bita []).responses ++ [{ status := .fault, cause := 1, value := none }]) ∧
    (∃ t, exec .readUint (stateOf .byte []) = .next t ∧
      t.responses = (stateOf .byte []).responses ++ [{ status := .fault, cause := 1, value := none }]) ∧
    (∃ t, exec .readI64 (stateOf .byte [3, 0xC0]) = .next t ∧
      t.responses = (stateOf .byte [3, 0xC0]).responses ++ [{ status := .fault, cause := 1, value := none }]) :=
  ⟨⟨_, by rfl, by rfl⟩, ⟨_, by rfl, by rfl⟩, ⟨_, by rfl, by rfl⟩⟩

theorem witness_NoStepChangesParamsOrBuffer : ∃ t, step (sending .byte [0x05] 0x0004 0) = .next t := ⟨_, by rfl⟩

theorem witness_OnlyOpenChangesTheMode :
    (∃ t, exec (.setpos 3) (stateOf .bita []) = .next t) ∧
    ∀ a, Instr.setpos 3 ≠ .openByte a ∧ Instr.setpos 3 ≠ .openBita a ∧ Instr.setpos 3 ≠ .openBitb a :=
  ⟨⟨_, by rfl⟩, fun _ => ⟨nofun, nofun, nofun⟩⟩

/-- A state with a valid cache, a recorded fault and a read pending. -/
theorem witness_EveryStepKeepsInv :
    let s : State := { sending .bita [0x52, 0x00] 0x0004 0 with
      bitoff := 1, curb := 0x52, curv := true, flt := true, fcause := 3, finfo := 1 }
    s.Inv ∧ ∃ t, step s = .next t := by
  refine ⟨⟨?_, ?_, ?_, ?_, ?_, ?_, ?_, ?_⟩, _, by rfl⟩ <;> decide

theorem witness_RunAnswersEveryCommand : configOk (sending .bita [0x52] 0x0004 0).params = true := by rfl

theorem witness_RunSucceedsWhenNoCommandFaults :
    let s := sending .byte [0x05] 0x0004 0
    configOk s.params = true ∧ (∀ e ∈ s.inbox, e.isCommand = true) ∧
    ∃ t, runAll s = .next t ∧ t.responses = s.responses ++ [{ status := .ok, cause := 0, value := some 4 }] :=
  ⟨by rfl, by decide, _, by rfl, by rfl⟩

/-- V-B5: eight markers in one byte. -/
theorem witness_ZeroMarkersDecodeToZeros :
    let s : State := { stateOf .bitb [0x00] with inbox := List.replicate 8 (.command 0x0004 0) }
    configOk s.params = true ∧ s.mode = .bitb ∧ s.inbox = List.replicate 8 (.command 0x0004 0) ∧
    ∀ k : Nat, k < 8 → streamBit s (bitCursor s + k) = some false := by
  refine ⟨by rfl, by rfl, by rfl, ?_⟩
  decide

/-- Two instances over one buffer. -/
def twoUnits : System := { units := [sending .byte [0x05] 0x0004 0, sending .byte [0x05] 0x0001 0] }

theorem witness_StepsOfDifferentUnitsCommute :
    (0 : Nat) ≠ 1 ∧ ∃ y₁ y₂, twoUnits.stepAt 0 = .next y₁ ∧ y₁.stepAt 1 = .next y₂ :=
  ⟨by decide, _, _, by rfl, by rfl⟩

theorem witness_UnitsStayApart : twoUnits.Shared ∧ ∃ z, twoUnits.stepAt 0 = .next z := by
  refine ⟨?_, _, by rfl⟩
  unfold System.Shared twoUnits
  decide

end Sys2Proof.Machine.Tests
end

/-! PROOFS. The statements on the scope of the block (spec/00_scope.md): the argument and the configuration, `rev32`,
that every step and every run ends, and that units side by side stay apart. -/

namespace Sys2Proof.Machine

/-! ## The argument (R12, R62) -/

theorem asSigned_of_lt {n v : Nat} (h : v % 2 ^ n < 2 ^ (n - 1)) : asSigned n v = ((v % 2 ^ n : Nat) : Int) := by
  simp [asSigned, h]

theorem asSigned_of_ge {n v : Nat} (h : ¬ v % 2 ^ n < 2 ^ (n - 1)) :
    asSigned n v = ((v % 2 ^ n : Nat) : Int) - 2 ^ n := by
  simp [asSigned, h]

/-- The signed reading of `n` bits lies in the range of an `n`-bit two's-complement register. -/
theorem asSigned_range {n : Nat} (hn : 1 ≤ n) (v : Nat) :
    -(2 : Int) ^ (n - 1) ≤ asSigned n v ∧ asSigned n v ≤ 2 ^ (n - 1) - 1 := by
  have hdouble : (2 : Int) ^ n = 2 * 2 ^ (n - 1) := by rw [← pow_succ', Nat.sub_add_cancel hn]
  have hmod : ((v % 2 ^ n : Nat) : Int) < 2 ^ n := by exact_mod_cast Nat.mod_lt v (Nat.two_pow_pos n)
  have hcast : ((2 ^ (n - 1) : Nat) : Int) = 2 ^ (n - 1) := by push_cast; rfl
  by_cases h : v % 2 ^ n < 2 ^ (n - 1)
  · rw [asSigned_of_lt h]
    omega
  · rw [asSigned_of_ge h]
    omega

/-- The signed reading of `n` bits agrees with the pattern modulo `2 ^ n`. -/
theorem two_pow_dvd_asSigned_sub (n v : Nat) : (2 : Int) ^ n ∣ asSigned n v - (v : Int) := by
  have hmod : (2 : Int) ^ n ∣ ((v % 2 ^ n : Nat) : Int) - v := by
    push_cast
    exact (Int.mod_modEq v (2 ^ n)).symm.dvd
  by_cases h : v % 2 ^ n < 2 ^ (n - 1)
  · rwa [asSigned_of_lt h]
  · rw [asSigned_of_ge h, sub_right_comm]
    exact hmod.sub (dvd_refl _)

/-! ## The configuration check (R8, R142) -/

/-- The constraints of R8 on exact integers, and a cap that is not 0: what `configOk` checks with subtractions of
natural numbers. -/
theorem configOk_iff (p : Params) : configOk p = true ↔
    (p.x ≤ 255 ∧ 1 ≤ p.l ∧ (p.l : Int) ≤ 256 - p.x ∧ 1 ≤ p.lgH ∧ p.lgH ≤ 7 ∧ 2 ≤ p.posW ∧ p.posW ≤ 62 ∧
      (p.bufLen : Int) ≤ 2 ^ (p.posW - 1) - 1) ∧ p.bpMaxGroups ≠ some 0 := by
  have hpow : 1 ≤ 2 ^ (p.posW - 1) := Nat.one_le_two_pow
  have hext : p.bufLen ≤ 2 ^ (p.posW - 1) - 1 ↔ (p.bufLen : Int) ≤ 2 ^ (p.posW - 1) - 1 := by
    zify [hpow]
  have hwin : p.x ≤ 255 → (p.l ≤ 256 - p.x ↔ (p.l : Int) ≤ 256 - p.x) := by omega
  simp only [configOk, decide_eq_true_eq, hext]
  tauto

theorem two_le_posW {p : Params} (h : configOk p = true) : 2 ≤ p.posW := by
  obtain ⟨⟨-, -, -, -, -, hposW, -⟩, -⟩ := (configOk_iff p).1 h
  exact hposW

/-- Settles O6: `argValue` is the signed reading of `POS_W` bits. -/
theorem argumentIsReadAsSigned : Obligations.ArgumentIsReadAsSigned := by
  intro p arg h
  obtain ⟨hmin, hmax⟩ := asSigned_range (Nat.le_of_succ_le (two_le_posW h)) arg.toNat
  exact ⟨hmin, hmax, two_pow_dvd_asSigned_sub p.posW arg.toNat⟩

theorem step_of_configOk_false {s : State} (h : configOk s.params = false) : step s = .refused .badConfiguration := by
  simp [step, fetch, h]

theorem step_of_no_event {s : State} (h : configOk s.params = true) (hin : s.inbox = []) : step s = .next s := by
  simp [step, fetch, h, hin]

/-- Settles O9: a broken constraint fails `configOk`, and `step` looks at that first. -/
theorem brokenConfigurationIsRefused : Obligations.BrokenConfigurationIsRefused := by
  intro s hbroken
  have hbad : ¬ configOk s.params = true := fun h => hbroken ((configOk_iff s.params).1 h).1
  exact step_of_configOk_false (Bool.eq_false_iff.2 hbad)

/-! ## Bit reversal (R12, R105) -/

theorem testBit_two_mul_add_mod_two_succ (acc v i : Nat) : (2 * acc + v % 2).testBit (i + 1) = acc.testBit i := by
  rw [Nat.testBit_succ]
  congr 1
  omega

/-- The low `n` bits of `reverseBits n v acc` are those of `v` in reverse, and `acc` stands above them. -/
theorem testBit_reverseBits (n v acc i : Nat) :
    (reverseBits n v acc).testBit i = if i < n then v.testBit (n - 1 - i) else acc.testBit (i - n) := by
  induction n generalizing v acc with
  | zero => simp [reverseBits]
  | succ n ih =>
    rw [reverseBits, ih]
    rcases Nat.lt_trichotomy i n with h | rfl | h
    · have hsucc : n + 1 - 1 - i = (n - 1 - i) + 1 := by omega
      rw [if_pos h, if_pos (by omega), hsucc, Nat.testBit_succ]
    · simp [Nat.testBit_zero]
    · have hsucc : i - n = (i - (n + 1)) + 1 := by omega
      rw [if_neg (by omega), if_neg (by omega), hsucc, testBit_two_mul_add_mod_two_succ]

/-- Settles O33: `rev32` is `reverseBits` of all 32 bits. -/
theorem rev32ReversesBits : Obligations.Rev32ReversesBits := by
  intro v i hi
  rw [rev32, BitVec.getLsbD_ofNat, testBit_reverseBits]
  simp [hi, BitVec.getLsbD]

/-! ## Every command's pseudocode ends (R142, R204) -/

/-- The pseudocode ends by itself, in a value or a `raise`: the model's step budget did not stop it. -/
def Reply.Ends {α : Type} (r : Reply α) : Prop := ∀ f, r ≠ .stuck f

section Ends
variable {α β : Type}

theorem Reply.Ends.of_value (a : α) (s : State) : (Reply.value a s).Ends := nofun

theorem Reply.Ends.of_raised (e : Raise) (s : State) : (Reply.raised e s : Reply α).Ends := nofun

theorem Reply.Ends.bind {r : Reply α} {k : α → State → Reply β} (h : r.Ends)
    (hk : ∀ a t, r = .value a t → (k a t).Ends) : (r.andThen k).Ends := by
  intro f hf
  obtain hr | ⟨a, t, hr, hkt⟩ := andThen_eq_stuck hf
  · exact h f hr
  · exact hk a t hr f hkt

theorem Reply.Ends.drawOnRaise {r : Reply α} (h : r.Ends) : (drawOnRaise r).Ends := by
  cases r with
  | value a s => exact .of_value a s
  | raised e s => exact .of_raised e _
  | stuck f => exact absurd rfl (h f)

end Ends

theorem memRead_ends (idx : Int) (s : State) : (memRead idx s).Ends := memRead_ne_stuck idx s

theorem memRead_eq_value {idx : Int} {s t : State} {b : Byte} (h : memRead idx s = .value b t) :
    t = s ∧ 0 ≤ idx ∧ idx < (s.params.bufLen : Int) := by
  obtain ⟨c, hc, hr⟩ | ⟨-, hr⟩ := memRead_cases idx s
  · rw [hr] at h
    cases h
    exact ⟨rfl, bufByte_some hc⟩
  · rw [hr] at h
    cases h

/-! ### `BYTE` -/

theorem u5Loop_ends (left : Nat) (p : Int) (sum : U32) (s : State) : (u5Loop left p sum s).Ends := by
  induction left generalizing sum s with
  | zero =>
    unfold u5Loop
    refine (memRead_ends _ s).bind fun b t _ => ?_
    dsimp only
    split <;> exact .of_value _ _
  | succ left ih =>
    unfold u5Loop
    refine (memRead_ends _ s).bind fun b t _ => ?_
    dsimp only
    split_ifs
    · exact .of_value _ _
    · exact .of_value _ _
    · exact ih _ t

theorem u5_ends (s : State) : (u5 s).Ends := by
  unfold u5
  refine (memRead_ends _ s).bind fun b t _ => ?_
  split
  · exact .of_value _ _
  · exact u5Loop_ends _ _ _ t

/-! ### `BITA` -/

/-- A valid cache stands for an index below the end of the buffer. A state outside `State.Inv` may break it; every
logical byte restores it. -/
def CacheBelowEnd (s : State) : Prop := s.curv = true → s.pos < (s.params.bufLen : Int)

theorem curA_ends (s : State) : (curA s).Ends := by
  unfold curA
  split
  · exact .of_value _ _
  · exact (memRead_ends _ s).bind fun b t _ => .of_value _ _

theorem rolloverA_ends (s : State) : (rolloverA s).Ends := by
  unfold rolloverA
  dsimp only
  split
  · exact (memRead_ends _ _).bind fun b t _ => .of_value _ _
  · exact .of_value _ _

theorem isZeroA_ends (s : State) : (isZeroA s).Ends := by
  unfold isZeroA
  refine (curA_ends s).bind fun c t _ => ?_
  dsimp only
  split_ifs
  · exact .of_value _ _
  · exact (rolloverA_ends t).bind fun _ u _ => .of_value _ _
  · exact .of_value _ _

theorem rawByteA_ends (s : State) : (rawByteA s).Ends := by
  unfold rawByteA
  refine (curA_ends s).bind fun c t _ => ?_
  split
  · exact .of_value _ _
  · exact (memRead_ends _ t).bind fun n u _ => .of_value _ _

theorem curA_eq_value {s t : State} {c : Byte} (h : curA s = .value c t) :
    t.params = s.params ∧ t.pos = s.pos ∧ (CacheBelowEnd s → s.pos < (s.params.bufLen : Int)) := by
  unfold curA at h
  split at h
  case isTrue hcurv =>
    cases h
    exact ⟨rfl, rfl, fun hs => hs hcurv⟩
  case isFalse =>
    obtain ⟨b, u, hb, hu⟩ := andThen_eq_value h
    obtain ⟨rfl, -, hlt⟩ := memRead_eq_value hb
    cases hu
    exact ⟨rfl, rfl, fun _ => hlt⟩

/-- A logical byte of `BITA` advances `POS` by 1, leaves a cache below the end of the buffer, and, from such a cache,
there was a byte at `POS` (R142, R145). -/
theorem rawByteA_eq_value {s t : State} {b : Byte} (h : rawByteA s = .value b t) :
    t.params = s.params ∧ t.pos = s.pos + 1 ∧ CacheBelowEnd t ∧
      (CacheBelowEnd s → s.pos < (s.params.bufLen : Int)) := by
  obtain ⟨c, u, hc, hu⟩ := andThen_eq_value h
  obtain ⟨hparams, hpos, hlt⟩ := curA_eq_value hc
  split at hu
  · cases hu
    exact ⟨hparams, by simp [hpos], by simp [CacheBelowEnd], hlt⟩
  · obtain ⟨n, w, hn, hw⟩ := andThen_eq_value hu
    obtain ⟨rfl, -, hnext⟩ := memRead_eq_value hn
    cases hw
    exact ⟨hparams, by simp [hpos], fun _ => by simpa using hnext, hlt⟩

/-- The loop of `UVarA` ends within one group for each byte from `POS` to the end of the buffer, and one more. -/
theorem uVarALoop_ends {budget : Nat} (g : Nat) (result : U32) {s : State} (hcache : CacheBelowEnd s)
    (hbudget : ((s.params.bufLen : Int) - s.pos).toNat + 1 ≤ budget) : (uVarALoop budget g result s).Ends := by
  induction budget generalizing g result s with
  | zero => omega
  | succ budget ih =>
    unfold uVarALoop
    refine (rawByteA_ends s).bind fun b t ht => ?_
    obtain ⟨hparams, hpos, hcache', hlt⟩ := rawByteA_eq_value ht
    dsimp only
    split_ifs
    · exact .of_value _ _
    · refine ih _ _ hcache' ?_
      have := hlt hcache
      rw [hparams, hpos]
      omega

/-- The group after the marker is read under whatever cache the marker left, so it is taken off the budget first. -/
theorem uVarALoop_groupBudget_ends (g : Nat) (result : U32) (s : State) :
    (uVarALoop (groupBudget s) g result s).Ends := by
  unfold groupBudget uVarALoop
  refine (rawByteA_ends s).bind fun b t ht => ?_
  obtain ⟨hparams, hpos, hcache, -⟩ := rawByteA_eq_value ht
  dsimp only
  split_ifs
  · exact .of_value _ _
  · refine uVarALoop_ends _ _ hcache ?_
    rw [hparams, hpos]
    omega

theorem uVarA_ends (s : State) : (uVarA s).Ends := by
  unfold uVarA
  refine (isZeroA_ends s).bind fun zero t _ => ?_
  split
  · exact .of_value _ _
  · exact uVarALoop_groupBudget_ends _ _ t

/-! ### `BITB` -/

theorem isZeroB_ends (s : State) : (isZeroB s).Ends := by
  unfold isZeroB
  refine (memRead_ends _ s).bind fun c t _ => ?_
  split_ifs <;> exact .of_value _ _

theorem rawByteB_ends (s : State) : (rawByteB s).Ends := by
  unfold rawByteB
  split
  · exact (memRead_ends _ s).bind fun b t _ => .of_value _ _
  · exact (memRead_ends _ s).bind fun c t _ => (memRead_ends _ t).bind fun n u _ => .of_value _ _

/-- A logical byte of `BITB` advances `POS` by 1, and there was a byte at `POS` (R142, R148). -/
theorem rawByteB_eq_value {s t : State} {b : Byte} (h : rawByteB s = .value b t) :
    t.params = s.params ∧ t.pos = s.pos + 1 ∧ s.pos < (s.params.bufLen : Int) := by
  unfold rawByteB at h
  split at h
  · obtain ⟨c, u, hc, hu⟩ := andThen_eq_value h
    obtain ⟨rfl, -, hlt⟩ := memRead_eq_value hc
    cases hu
    exact ⟨rfl, rfl, hlt⟩
  · obtain ⟨c, u, hc, hu⟩ := andThen_eq_value h
    obtain ⟨rfl, -, hlt⟩ := memRead_eq_value hc
    obtain ⟨n, w, hn, hw⟩ := andThen_eq_value hu
    obtain ⟨rfl, -, -⟩ := memRead_eq_value hn
    cases hw
    exact ⟨rfl, rfl, hlt⟩

/-- The loop of `UVarB` ends within one group for each byte from `POS` to the end of the buffer, and one more. -/
theorem uVarBLoop_ends {budget : Nat} (i : Nat) (b : Byte) (result : U32) {s : State}
    (hbudget : ((s.params.bufLen : Int) - s.pos).toNat + 1 ≤ budget) : (uVarBLoop budget i b result s).Ends := by
  induction budget generalizing i b result s with
  | zero => omega
  | succ budget ih =>
    unfold uVarBLoop
    split
    · exact .of_value _ _
    · refine (rawByteB_ends s).bind fun c t ht => ih _ _ _ ?_
      obtain ⟨hparams, hpos, hlt⟩ := rawByteB_eq_value ht
      rw [hparams, hpos]
      omega

theorem uVarB_ends (s : State) : (uVarB s).Ends := by
  unfold uVarB
  refine (isZeroB_ends s).bind fun zero t _ => ?_
  split
  · exact .of_value _ _
  · refine (rawByteB_ends t).bind fun b u _ => uVarBLoop_ends _ _ _ (Nat.le_succ _)

/-! ### Every command -/

theorem readVarint_ends (s : State) : (readVarint s).Ends := by
  unfold readVarint
  cases s.mode with
  | byte => exact u5_ends s
  | bita => exact (uVarA_ends s).drawOnRaise
  | bitb => exact (uVarB_ends s).drawOnRaise

theorem readOne_ends (f : U32 → Value) (s : State) : (readOne f s).Ends :=
  (readVarint_ends s).bind fun _ _ _ => .of_value _ _

theorem readTwo_ends (f : U32 → U32 → Value) (s : State) : (readTwo f s).Ends :=
  (readVarint_ends s).bind fun _ t _ => (readVarint_ends t).bind fun _ _ _ => .of_value _ _

theorem skipBy_ends (n : Int) (s : State) : (skipBy n s).Ends := by
  unfold skipBy
  split
  · exact .of_raised _ _
  · exact .of_value _ _

theorem bodyOf_ends (i : Instr) (s : State) : (bodyOf i s).Ends := by
  cases i with
  | openByte a => exact .of_value _ _
  | openBita a => exact .of_value _ _
  | openBitb a => exact .of_value _ _
  | getpos => exact .of_value _ _
  | setpos a => exact .of_value _ _
  | skip a => exact skipBy_ends _ s
  | readUint => exact readOne_ends _ s
  | readSint => exact readOne_ends _ s
  | readBool => exact readOne_ends _ s
  | readI8 => exact readOne_ends _ s
  | readI16 => exact readOne_ends _ s
  | readChar16 => exact readOne_ends _ s
  | readF32 => exact readOne_ends _ s
  | readF64 => exact readTwo_ends _ s
  | readI64 => exact readTwo_ends _ s
  | peek a => exact (memRead_ends _ s).bind fun _ _ _ => .of_value _ _
  | readByte => exact (memRead_ends _ s).bind fun _ _ _ => .of_value _ _

/-! ## What an event leaves (R29, R42, R60, R190) -/

/-- `t` is what `s` becomes by answering `rs`: the responses are lawful (R29), and the parameters, the buffer and the
events still to come are those of `s`. -/
structure Answering (s : State) (rs : List Response) (t : State) : Prop where
  params : t.params = s.params
  buf : t.buf = s.buf
  inbox : t.inbox = s.inbox
  responses : t.responses = s.responses ++ rs
  lawful : ∀ r ∈ rs, r.Lawful

theorem OnlyRegisters.refl (s : State) : OnlyRegisters s s := rfl

theorem Answering.answered {s t : State} (h : OnlyRegisters s t) (v : Option Value) :
    Answering s [{ status := .ok, cause := 0, value := v }] (t.answered v) := by
  obtain ⟨hparams, hbuf, -, -, -, hinbox, hresponses⟩ := h.fields
  exact ⟨hparams, hbuf, hinbox, by simp [State.answered, hresponses], by simp [Response.Lawful]⟩

theorem Answering.faulted {s t : State} (h : OnlyRegisters s t) {code : BitVec 4} (info : BitVec 64)
    (hcode : code = 1 ∨ code = 2 ∨ code = 3) :
    Answering s [{ status := .fault, cause := code, value := none }] (t.faulted code info) := by
  obtain ⟨hparams, hbuf, -, -, -, hinbox, hresponses⟩ := h.fields
  exact ⟨hparams, hbuf, hinbox, by simp [State.faulted, hresponses], by simpa [Response.Lawful] using hcode⟩

theorem raiseCode_cases (e : Raise) : raiseCode e = 1 ∨ raiseCode e = 2 ∨ raiseCode e = 3 := by
  cases e <;> simp [raiseCode]

/-- Every command, in every state, is answered by one lawful response, with parameters, buffer and port as they were. -/
theorem exec_answers (i : Instr) (s : State) : ∃ t r, exec i s = .next t ∧ Answering s [r] t := by
  obtain ⟨-, h⟩ | ⟨-, h⟩ := exec_cases i s
  · exact ⟨_, _, h, .faulted (.refl s) _ (by simp)⟩
  · rw [h]
    cases hbody : bodyOf i s with
    | value v t => exact ⟨_, _, finish_value v t, .answered ((bodyOf_runs i s).value v t hbody).1 v⟩
    | raised e t =>
      exact ⟨_, _, finish_raised e t, .faulted ((bodyOf_runs i s).raised e t hbody).1 _ (raiseCode_cases e)⟩
    | stuck f => exact absurd hbody (bodyOf_ends i s f)

/-- Taking one event: a command is answered once, a reset not at all. -/
theorem step_answers {s : State} {e : HostEvent} {rest : List HostEvent} (hc : configOk s.params = true)
    (hin : s.inbox = e :: rest) :
    ∃ t rs, step s = .next t ∧ Answering (s.setInbox rest) rs t ∧ rs.length = [e].countP HostEvent.isCommand := by
  obtain ⟨hbad, -⟩ | ⟨-, hnil, -⟩ | ⟨rest', -, hin', h⟩ | ⟨cw, arg, rest', _, -, hin', -, h⟩ |
    ⟨cw, arg, rest', i, -, hin', -, h⟩ := step_cases s
  · simp [hbad] at hc
  · simp [hnil] at hin
  · obtain ⟨rfl, rfl⟩ := List.cons.inj (hin.symm.trans hin')
    exact ⟨_, [], h, ⟨rfl, rfl, rfl, by simp [resetEvent], by simp⟩, rfl⟩
  · obtain ⟨rfl, rfl⟩ := List.cons.inj (hin.symm.trans hin')
    exact ⟨_, _, h, .faulted (.refl _) _ (by simp), rfl⟩
  · obtain ⟨rfl, rfl⟩ := List.cons.inj (hin.symm.trans hin')
    obtain ⟨t, r, hexec, ht⟩ := exec_answers i (s.setInbox rest)
    exact ⟨t, [r], h.trans hexec, ht, rfl⟩

/-- Settles O10: with an event pending it is answered, and with none the unit waits. -/
theorem everyOtherStepGoesOn : Obligations.EveryOtherStepGoesOn := by
  intro s hR8 hcap
  have hc : configOk s.params = true := (configOk_iff s.params).2 ⟨hR8, hcap⟩
  cases hin : s.inbox with
  | nil => exact ⟨s, step_of_no_event hc hin⟩
  | cons e rest =>
    obtain ⟨t, rs, ht, -⟩ := step_answers hc hin
    exact ⟨t, ht⟩

/-! ## Runs (R14, R205, R206) -/

/-- Settles O55, by induction on the pending events. -/
theorem runAnswersEveryCommand : Obligations.RunAnswersEveryCommand := by
  intro s hc
  unfold runAll
  induction hin : s.inbox generalizing s with
  | nil => exact ⟨s, [], rfl, hin, by simp, rfl, by simp, rfl, rfl⟩
  | cons e rest ih =>
    obtain ⟨t, rs, hstep, ht, hlen⟩ := step_answers hc hin
    obtain ⟨hparams, hbuf, hinbox, hresponses, hlawful⟩ := ht
    obtain ⟨u, rs', hrun, hdone, hresponses', hlen', hlawful', hparams', hbuf'⟩ := ih t (by rwa [hparams]) hinbox
    refine ⟨u, rs ++ rs', (run_of_step_next hstep _).trans hrun, hdone, ?_, ?_, ?_, hparams'.trans hparams,
      hbuf'.trans hbuf⟩
    · simp [hresponses', hresponses]
    · rw [List.length_append, hlen, hlen', ← List.countP_append, List.singleton_append]
    · intro r hr
      exact (List.mem_append.1 hr).elim (hlawful r) (hlawful' r)

/-! ## Units side by side (R53, R180) -/

/-- No step writes the parameters or the buffer (R9, R42). -/
theorem step_params_buf {s t : State} (h : step s = .next t) : t.params = s.params ∧ t.buf = s.buf := by
  cases hc : configOk s.params with
  | false => simp [step_of_configOk_false hc] at h
  | true =>
    cases hin : s.inbox with
    | nil =>
      obtain rfl : s = t := by simpa [step_of_no_event hc hin] using h
      exact ⟨rfl, rfl⟩
    | cons e rest =>
      obtain ⟨u, rs, hu, ha, -⟩ := step_answers hc hin
      obtain rfl : u = t := by simpa [hu] using h
      exact ⟨ha.params, ha.buf⟩

/-- What a step of unit `k` does to the system: nothing where there is no such unit, else its state alone is
replaced by the next one. -/
theorem stepAt_eq_next {y z : System} {k : Nat} (h : y.stepAt k = .next z) :
    (y.units[k]? = none ∧ z = y) ∨
    ∃ s t, y.units[k]? = some s ∧ step s = .next t ∧ z = { units := y.units.set k t } := by
  unfold System.stepAt at h
  split at h
  case h_1 hk =>
    cases h
    exact .inl ⟨hk, rfl⟩
  case h_2 s hk =>
    split at h
    case h_1 t ht =>
      cases h
      exact .inr ⟨s, t, hk, ht, rfl⟩
    case h_2 => cases h
    case h_3 => cases h

/-- Replacing a unit by one with the same parameters and buffer keeps all sharing them. -/
theorem System.Shared.set {y : System} (h : y.Shared) {k : Nat} {s t : State} (hk : y.units[k]? = some s)
    (hp : t.params = s.params) (hb : t.buf = s.buf) : System.Shared { units := y.units.set k t } := by
  have hs : s ∈ y.units := List.mem_of_getElem? hk
  have hlike : ∀ u ∈ y.units.set k t, u.params = s.params ∧ u.buf = s.buf := by
    intro u hu
    obtain hu | rfl := List.mem_or_eq_of_mem_set hu
    · exact h u hu s hs
    · exact ⟨hp, hb⟩
  intro u hu v hv
  obtain ⟨hup, hub⟩ := hlike u hu
  obtain ⟨hvp, hvb⟩ := hlike v hv
  exact ⟨hup.trans hvp.symm, hub.trans hvb.symm⟩

/-- Settles O59: only the stepped unit is replaced, and its step writes neither parameters nor buffer. -/
theorem unitsStayApart : Obligations.UnitsStayApart := by
  intro y z k hshared h
  obtain ⟨-, rfl⟩ | ⟨s, t, hk, ht, rfl⟩ := stepAt_eq_next h
  · exact ⟨hshared, fun _ _ => rfl⟩
  · obtain ⟨hp, hb⟩ := step_params_buf ht
    exact ⟨hshared.set hk hp hb, fun j hj => List.getElem?_set_ne hj.symm⟩

end Sys2Proof.Machine

/-! PROOFS. The statements on the state of one unit (spec/10_state.md): its values at reset, the one response to each
command and the fault register, the invariant of the states between commands, and the cache of `BITA`. -/

namespace Sys2Proof.Machine

/-! ## Reset (R32) -/

/-- Settles O11: the values are those `State.reset` is written with. -/
theorem resetValues : Obligations.ResetValues := ⟨rfl, rfl, rfl, rfl, rfl, rfl, rfl⟩

/-- Settles O53: the cache is empty, no fault is recorded, and 0 lies in the range of `POS`. -/
theorem invHoldsAtReset : Obligations.InvHoldsAtReset where
  memory := reset_memory_wf
  extent := nofun
  pos_min := by decide
  pos_max := by decide
  cache := nofun
  bitoff _ := rfl
  no_fault _ := ⟨rfl, rfl⟩
  fault := nofun

/-! ## The response and the fault register (R28, R29, R171) -/

/-- How a command ends: it is rejected for its mode (R66), or its pseudocode answers, or its pseudocode raises. -/
theorem exec_ends (i : Instr) (s : State) :
    exec i s = .next (s.faulted 2 ((commandWord i).setWidth 64)) ∨
    ¬ (s.mode ≠ .byte ∧ i ∈ byteCodecOnly) ∧
      ((∃ v u, bodyOf i s = .value v u ∧ exec i s = .next (u.answered v)) ∨
        ∃ e u, bodyOf i s = .raised e u ∧ exec i s = .next (u.faulted (raiseCode e) (raiseInfo e))) := by
  obtain ⟨-, h⟩ | ⟨hadm, h⟩ := exec_cases i s
  · exact .inl h
  · refine .inr ⟨hadm, ?_⟩
    rw [h]
    cases hbody : bodyOf i s with
    | value v u => exact .inl ⟨v, u, rfl, finish_value v u⟩
    | raised e u => exact .inr ⟨e, u, rfl, finish_raised e u⟩
    | stuck f => exact absurd hbody (bodyOf_ends i s f)

/-- `t` is left by answering `r` in a state whose fault register is that of `s`: an OK response leaves the register, a
FAULT response sets it and records its cause if no fault was recorded before. -/
structure RecordsFirstFault (s : State) (r : Response) (t : State) : Prop where
  responses : t.responses = s.responses ++ [r]
  ok : r.status = .ok → t.flt = s.flt ∧ t.fcause = s.fcause ∧ t.finfo = s.finfo
  fault : r.status = .fault → t.flt = true ∧
    (s.flt = true → t.fcause = s.fcause ∧ t.finfo = s.finfo) ∧ (s.flt = false → t.fcause = r.cause)

theorem RecordsFirstFault.answered {s u : State} (h : OnlyRegisters s u) (v : Option Value) :
    RecordsFirstFault s { status := .ok, cause := 0, value := v } (u.answered v) := by
  obtain ⟨-, -, hflt, hcause, hinfo, -, hresponses⟩ := h.fields
  exact ⟨by simp [State.answered, hresponses], fun _ => ⟨hflt, hcause, hinfo⟩, nofun⟩

theorem RecordsFirstFault.faulted {s u : State} (h : OnlyRegisters s u) (code : BitVec 4) (info : BitVec 64) :
    RecordsFirstFault s { status := .fault, cause := code, value := none } (u.faulted code info) := by
  obtain ⟨-, -, hflt, hcause, hinfo, -, hresponses⟩ := h.fields
  refine ⟨by simp [State.faulted, hresponses], nofun, fun _ => ⟨rfl, fun hset => ?_, fun hclear => ?_⟩⟩
  · simp [State.faulted, hflt, hset, hcause, hinfo]
  · simp [State.faulted, hflt, hclear]

theorem exec_recordsFirstFault {i : Instr} {s t : State} (h : exec i s = .next t) : ∃ r, RecordsFirstFault s r t := by
  obtain ht | ⟨-, ⟨v, u, hu, ht⟩ | ⟨e, u, hu, ht⟩⟩ := exec_ends i s
  · cases h.symm.trans ht
    exact ⟨_, .faulted (.refl s) _ _⟩
  · cases h.symm.trans ht
    exact ⟨_, .answered ((bodyOf_runs i s).value v u hu).1 v⟩
  · cases h.symm.trans ht
    exact ⟨_, .faulted ((bodyOf_runs i s).raised e u hu).1 _ _⟩

/-- Settles O48: a command's pseudocode ends, in a value or in one of the three causes. -/
theorem everyCommandIsAnsweredOnce : Obligations.EveryCommandIsAnsweredOnce := by
  intro i s
  obtain ⟨t, r, h, ht⟩ := exec_answers i s
  exact ⟨t, r, h, ht.responses, ht.lawful r (List.mem_singleton_self r)⟩

/-- Settles O49: a command writes the fault register only where it takes a fault. -/
theorem faultRegisterKeepsTheFirstFault : Obligations.FaultRegisterKeepsTheFirstFault := by
  intro i s t h
  obtain ⟨r, hresponses, hok, hfault⟩ := exec_recordsFirstFault h
  exact ⟨r, hresponses, hok, hfault⟩

/-! ## The success of a run (R174, R206) -/

theorem RecordsFirstFault.succeeded_iff {s t : State} {r : Response} (h : RecordsFirstFault s r t) :
    t.Succeeded ↔ s.Succeeded ∧ r.status = .ok := by
  unfold State.Succeeded
  cases hr : r.status with
  | ok => simp [(h.ok hr).1]
  | fault => simp [(h.fault hr).1]

theorem step_recordsFirstFault {s t : State} {e : HostEvent} {rest : List HostEvent} (hin : s.inbox = e :: rest)
    (he : e.isCommand = true) (h : step s = .next t) : ∃ r, RecordsFirstFault s r t := by
  obtain ⟨-, hs⟩ | ⟨-, hnil, -⟩ | ⟨rest', -, hin', -⟩ | ⟨cw, arg, rest', _, -, -, -, hs⟩ |
    ⟨cw, arg, rest', i, -, -, -, hs⟩ := step_cases s
  · cases h.symm.trans hs
  · cases hin.symm.trans hnil
  · cases hin.symm.trans hin'
    cases he
  · cases h.symm.trans hs
    obtain ⟨hresponses, hok, hfault⟩ := RecordsFirstFault.faulted (.refl (s.setInbox rest')) 2 (cw.setWidth 64)
    exact ⟨_, hresponses, hok, hfault⟩
  · obtain ⟨r, hresponses, hok, hfault⟩ := exec_recordsFirstFault (hs.symm.trans h)
    exact ⟨r, hresponses, hok, hfault⟩

/-- Settles O56, by induction on the pending commands: each one keeps success exactly if it is answered OK. -/
theorem runSucceedsWhenNoCommandFaults : Obligations.RunSucceedsWhenNoCommandFaults := by
  intro s t rs hc hcmd hrun hrs
  induction hin : s.inbox generalizing s rs with
  | nil =>
    rw [runAll, hin] at hrun
    cases hrun
    simp [List.self_eq_append_right.1 hrs]
  | cons e rest ih =>
    obtain ⟨u, _, hstep, hu, -⟩ := step_answers hc hin
    have hcu : configOk u.params = true := by rw [hu.params]; exact hc
    have hinu : u.inbox = rest := hu.inbox
    have hrunu : runAll u = .next t := by
      rw [runAll, hinu, ← run_of_step_next hstep, ← hrun, runAll, hin, List.length_cons]
    obtain ⟨t', rs', hrun', -, hrs', -⟩ := runAnswersEveryCommand u hcu
    cases hrunu.symm.trans hrun'
    obtain ⟨r, hr⟩ := step_recordsFirstFault hin (hcmd e (by simp [hin])) hstep
    obtain rfl : rs = r :: rs' := by simpa [hr.responses, hrs] using hrs'
    have hcmdu : ∀ e ∈ u.inbox, e.isCommand = true := fun e he => hcmd e (by simp [hin, ← hinu, he])
    rw [ih u rs' hcu hcmdu hrunu hrs' hinu, hr.succeeded_iff, List.forall_mem_cons, and_assoc]

/-! ## What a piece of pseudocode leaves -/

/-- A piece of pseudocode that ends in a value leaves `P` of it and the state, and one that raises leaves `R`. -/
structure Reply.Leaves {α : Type} (r : Reply α) (P : α → State → Prop) (R : State → Prop) : Prop where
  value : ∀ a t, r = .value a t → P a t
  raised : ∀ e t, r = .raised e t → R t

section Leaves
variable {α β : Type} {P : α → State → Prop} {Q : β → State → Prop} {R : State → Prop}

theorem Reply.Leaves.of_value {a : α} {s : State} (h : P a s) : (Reply.value a s).Leaves P R :=
  ⟨fun _ _ e => (by cases e; exact h), fun _ _ e => (by cases e)⟩

theorem Reply.Leaves.of_raised {e : Raise} {s : State} (h : R s) : (Reply.raised e s).Leaves P R :=
  ⟨fun _ _ e => (by cases e), fun _ _ e => (by cases e; exact h)⟩

theorem Reply.Leaves.of_stuck (f : Fault) : (Reply.stuck f).Leaves P R :=
  ⟨fun _ _ e => (by cases e), fun _ _ e => (by cases e)⟩

theorem Reply.Leaves.bind {r : Reply α} {k : α → State → Reply β} (h : r.Leaves P R)
    (hk : ∀ a t, P a t → (k a t).Leaves Q R) : (r.andThen k).Leaves Q R := by
  cases r with
  | value a t => exact hk a t (h.value a t rfl)
  | raised e t => exact .of_raised (h.raised e t rfl)
  | stuck f => exact .of_stuck f

theorem Reply.Leaves.mono {r : Reply α} {P' : α → State → Prop} {R' : State → Prop} (h : r.Leaves P R)
    (hP : ∀ a t, P a t → P' a t) (hR : ∀ t, R t → R' t) : r.Leaves P' R' :=
  ⟨fun a t e => hP a t (h.value a t e), fun e t he => hR t (h.raised e t he)⟩

/-- What follows a read of the buffer starts from the same state, with the byte that stands there. -/
theorem memRead_bind_leaves {idx : Int} {s : State} {k : Byte → State → Reply β} (h : R s)
    (hk : ∀ b, bufByte s idx = some b → (k b s).Leaves Q R) : ((memRead idx s).andThen k).Leaves Q R := by
  obtain ⟨b, hb, hr⟩ | ⟨-, hr⟩ := memRead_cases idx s
  · rw [hr]
    exact hk b hb
  · rw [hr]
    exact .of_raised h

end Leaves

/-! ## The invariant of the cursor registers (R23 to R26) -/

theorem argValue_range {p : Params} (h : configOk p = true) (a : Arg) :
    posMin p ≤ argValue p a ∧ argValue p a ≤ posMax p :=
  asSigned_range (Nat.le_of_succ_le (two_le_posW h)) a.toNat

theorem posMin_le_zero (p : Params) : posMin p ≤ 0 := by
  have : (0 : Int) ≤ 2 ^ (p.posW - 1) := by positivity
  unfold posMin
  omega

theorem bufLen_le_posMax {p : Params} (h : configOk p = true) : (p.bufLen : Int) ≤ posMax p := by
  obtain ⟨⟨-, -, -, -, -, -, -, hlen⟩, -⟩ := (configOk_iff p).1 h
  exact hlen

/-- The part of `State.Inv` that speaks of the cursor registers, in an allowed configuration. -/
structure State.CursorInv (s : State) : Prop where
  config : configOk s.params = true
  pos_min : posMin s.params ≤ s.pos
  pos_max : s.pos ≤ posMax s.params
  cache : s.curv = true → s.mode = .bita ∧ bufByte s s.pos = some s.curb
  bitoff : s.mode = .byte → s.bitoff = 0

theorem State.Inv.cursorInv {s : State} (h : s.Inv) (hc : configOk s.params = true) : s.CursorInv :=
  ⟨hc, h.pos_min, h.pos_max, h.cache, h.bitoff⟩

theorem State.CursorInv.coherent {s : State} (h : s.CursorInv) : s.Coherent := fun hv => (h.cache hv).2

/-- `POS` may be any index of the buffer, or the one behind its end (R8). -/
theorem State.CursorInv.setPos_range {s : State} (h : s.CursorInv) {p : Int} (hmin : 0 ≤ p)
    (hmax : p ≤ (s.params.bufLen : Int)) : posMin s.params ≤ p ∧ p ≤ posMax s.params :=
  ⟨(posMin_le_zero _).trans hmin, hmax.trans (bufLen_le_posMax h.config)⟩

/-- Outside `BITA` the cache is empty, and `POS` moves freely. -/
theorem State.CursorInv.setPos {s : State} (h : s.CursorInv) (hm : s.mode ≠ .bita) {p : Int} (hmin : 0 ≤ p)
    (hmax : p ≤ (s.params.bufLen : Int)) : (s.setPos p).CursorInv where
  config := h.config
  pos_min := (h.setPos_range hmin hmax).1
  pos_max := (h.setPos_range hmin hmax).2
  cache hv := absurd (h.cache hv).1 hm
  bitoff := h.bitoff

theorem State.CursorInv.setBitoff {s : State} (h : s.CursorInv) {b : BitVec 3} (hb : s.mode = .byte → b = 0) :
    (s.setBitoff b).CursorInv where
  config := h.config
  pos_min := h.pos_min
  pos_max := h.pos_max
  cache := h.cache
  bitoff := hb

theorem State.CursorInv.loadCache {s : State} (h : s.CursorInv) (hm : s.mode = .bita) {b : Byte}
    (hb : bufByte s s.pos = some b) : (s.loadCache b).CursorInv where
  config := h.config
  pos_min := h.pos_min
  pos_max := h.pos_max
  cache _ := ⟨hm, hb⟩
  bitoff := h.bitoff

/-- Dropping the cache lets `POS` move in any mode (R81, R83, R145). -/
theorem State.CursorInv.setPos_dropCache {s : State} (h : s.CursorInv) {p : Int}
    (hp : posMin s.params ≤ p ∧ p ≤ posMax s.params) : (s.setPos p).dropCache.CursorInv where
  config := h.config
  pos_min := hp.1
  pos_max := hp.2
  cache := nofun
  bitoff := h.bitoff

/-- The state of R156 meets the invariant whatever the draws are. -/
theorem drawCursor_cursorInv {s : State} (hc : configOk s.params = true) (hm : s.mode ≠ .byte) :
    (drawCursor s).CursorInv where
  config := hc
  pos_min := (argValue_range hc _).1
  pos_max := (argValue_range hc _).2
  cache := nofun
  bitoff h := absurd h hm

/-- The invariant in a given mode: what a decoder of that mode keeps. -/
structure State.CursorIn (m : Mode) (s : State) : Prop where
  mode : s.mode = m
  inv : s.CursorInv

/-- A bit-mode read keeps the invariant: on a `raise` its state is that of R156. -/
theorem Reply.Leaves.drawOnRaise {r : Reply U32} {m : Mode} {s : State} (h : s.CursorIn m) (hm : m ≠ .byte)
    (hr : r.Leaves (fun _ t => t.CursorIn m) fun _ => True) (hd : Decodes s r) :
    (drawOnRaise r).Leaves (fun _ t => t.CursorInv) State.CursorInv := by
  constructor
  · intro a t e
    exact (hr.value a t (drawOnRaise_value.1 e)).inv
  · intro e t he
    obtain ⟨u, hu, rfl⟩ := drawOnRaise_raised.1 he
    have hsu := (hd.raised e u hu).1
    exact drawCursor_cursorInv (by rw [hsu.params]; exact h.inv.config) (by rwa [hsu.mode, h.mode])

/-! ### `BYTE` -/

/-- `POS` of `s` has moved to an index of the buffer or behind its end, and nothing else has changed. -/
def MovedInBuffer (s t : State) : Prop := ∃ p : Int, t = s.setPos p ∧ 0 ≤ p ∧ p ≤ (s.params.bufLen : Int)

theorem u5Loop_leaves (left : Nat) (p : Int) (sum : U32) (s : State) :
    (u5Loop left p sum s).Leaves (fun _ t => MovedInBuffer s t) (· = s) := by
  induction left generalizing sum with
  | zero =>
    unfold u5Loop
    refine memRead_bind_leaves rfl fun b hb => ?_
    obtain ⟨hmin, hmax⟩ := bufByte_some hb
    dsimp only
    split
    · exact .of_value ⟨_, rfl, hmin, hmax.le⟩
    · exact .of_value ⟨_, rfl, by simp only [maxLength] at *; omega, by simp only [maxLength] at *; omega⟩
  | succ left ih =>
    unfold u5Loop
    refine memRead_bind_leaves rfl fun b hb => ?_
    obtain ⟨hmin, hmax⟩ := bufByte_some hb
    dsimp only
    split_ifs
    · exact .of_value ⟨_, rfl, hmin, hmax.le⟩
    · exact .of_value ⟨_, rfl, by omega, by omega⟩
    · exact ih _

/-- A varint of `BYTE` mode moves `POS` inside the buffer or to its end, and leaves the state alone where it raises
(R101). -/
theorem u5_leaves (s : State) : (u5 s).Leaves (fun _ t => MovedInBuffer s t) (· = s) := by
  unfold u5
  refine memRead_bind_leaves rfl fun b hb => ?_
  obtain ⟨hmin, hmax⟩ := bufByte_some hb
  split
  · exact .of_value ⟨_, rfl, by omega, by omega⟩
  · exact u5Loop_leaves _ _ _ s

/-! ### `BITA` -/

/-- From a coherent cache `CurA` does what a fresh read of the byte at `POS` does (R26, R143). -/
theorem curA_of_coherent {s : State} (h : s.Coherent) :
    curA s = (memRead s.pos s).andThen fun b s => .value b (s.loadCache b) := by
  unfold curA
  split
  case isTrue hv =>
    rw [memRead_of_some (h hv), andThen_value]
    cases s
    simp_all [State.loadCache]
  case isFalse => rfl

theorem curA_leaves {s : State} (h : s.CursorIn .bita) :
    (curA s).Leaves (fun c t => t.CursorIn .bita ∧ bufByte t t.pos = some c) fun _ => True := by
  rw [curA_of_coherent h.inv.coherent]
  refine memRead_bind_leaves trivial fun b hb => ?_
  exact .of_value ⟨⟨h.mode, h.inv.loadCache h.mode hb⟩, hb⟩

/-- `POS` moves past a byte of the buffer and the cache is dropped. -/
theorem State.CursorIn.dropNext {m : Mode} {s : State} (h : s.CursorIn m) {c : Byte}
    (hc : bufByte s s.pos = some c) : ((s.setPos (s.pos + 1)).dropCache).CursorIn m := by
  obtain ⟨hmin, hmax⟩ := bufByte_some hc
  exact ⟨h.mode, h.inv.setPos_dropCache (h.inv.setPos_range (by omega) (by omega))⟩

/-- `POS` moves to the next byte of the buffer, which is read into the cache. -/
theorem State.CursorIn.loadNext {s : State} (h : s.CursorIn .bita) {n : Byte}
    (hn : bufByte s (s.pos + 1) = some n) : ((s.setPos (s.pos + 1)).loadCache n).CursorIn .bita := by
  obtain ⟨hmin, hmax⟩ := bufByte_some hn
  exact ⟨h.mode, (h.inv.setPos_dropCache (h.inv.setPos_range hmin hmax.le)).loadCache h.mode hn⟩

theorem State.CursorIn.setBitoff {m : Mode} {s : State} (h : s.CursorIn m) (hm : m ≠ .byte) (b : BitVec 3) :
    (s.setBitoff b).CursorIn m :=
  ⟨h.mode, h.inv.setBitoff fun hb => absurd (h.mode.symm.trans hb) hm⟩

theorem rolloverA_leaves {s : State} (h : s.CursorIn .bita) {c : Byte} (hc : bufByte s s.pos = some c) :
    (rolloverA s).Leaves (fun _ t => t.CursorIn .bita) fun _ => True := by
  have h0 := h.setBitoff nofun 0
  unfold rolloverA
  dsimp only
  split
  · refine memRead_bind_leaves trivial fun b hb => ?_
    exact .of_value (h0.loadNext hb)
  · exact .of_value (h0.dropNext hc)

theorem isZeroA_leaves {s : State} (h : s.CursorIn .bita) :
    (isZeroA s).Leaves (fun _ t => t.CursorIn .bita) fun _ => True := by
  unfold isZeroA
  refine (curA_leaves h).bind fun c t ⟨ht, hc⟩ => ?_
  dsimp only
  split_ifs
  · exact .of_value ht
  · exact (rolloverA_leaves ht hc).bind fun _ _ hu => .of_value hu
  · exact .of_value (ht.setBitoff nofun _)

theorem rawByteA_leaves {s : State} (h : s.CursorIn .bita) :
    (rawByteA s).Leaves (fun _ t => t.CursorIn .bita) fun _ => True := by
  unfold rawByteA
  refine (curA_leaves h).bind fun c t ⟨ht, hc⟩ => ?_
  split
  · exact .of_value (ht.dropNext hc)
  · refine memRead_bind_leaves trivial fun n hn => ?_
    exact .of_value (ht.loadNext hn)

theorem uVarALoop_leaves (budget g : Nat) (result : U32) {s : State} (h : s.CursorIn .bita) :
    (uVarALoop budget g result s).Leaves (fun _ t => t.CursorIn .bita) fun _ => True := by
  induction budget generalizing g result s with
  | zero => exact .of_stuck _
  | succ budget ih =>
    unfold uVarALoop
    refine (rawByteA_leaves h).bind fun b t ht => ?_
    dsimp only
    split_ifs
    · exact .of_value ht
    · exact ih _ _ ht

theorem uVarA_leaves {s : State} (h : s.CursorIn .bita) :
    (uVarA s).Leaves (fun _ t => t.CursorIn .bita) fun _ => True := by
  unfold uVarA
  refine (isZeroA_leaves h).bind fun zero t ht => ?_
  split
  · exact .of_value ht
  · exact uVarALoop_leaves _ _ _ ht

/-! ### `BITB` -/

/-- `POS` moves past a byte of the buffer; `BITB` has no cache to drop. -/
theorem State.CursorIn.moveNext {s : State} (h : s.CursorIn .bitb) {c : Byte} (hc : bufByte s s.pos = some c) :
    (s.setPos (s.pos + 1)).CursorIn .bitb := by
  obtain ⟨hmin, hmax⟩ := bufByte_some hc
  exact ⟨h.mode, h.inv.setPos (by simp [h.mode]) (by omega) (by omega)⟩

theorem isZeroB_leaves {s : State} (h : s.CursorIn .bitb) :
    (isZeroB s).Leaves (fun _ t => t.CursorIn .bitb) fun _ => True := by
  unfold isZeroB
  refine memRead_bind_leaves trivial fun c hc => ?_
  split_ifs
  · exact .of_value h
  · exact .of_value ((h.setBitoff nofun 0).moveNext hc)
  · exact .of_value (h.setBitoff nofun _)

theorem rawByteB_leaves {s : State} (h : s.CursorIn .bitb) :
    (rawByteB s).Leaves (fun _ t => t.CursorIn .bitb) fun _ => True := by
  unfold rawByteB
  split
  · refine memRead_bind_leaves trivial fun c hc => ?_
    exact .of_value (h.moveNext hc)
  · refine memRead_bind_leaves trivial fun c hc => ?_
    refine memRead_bind_leaves trivial fun n _ => ?_
    exact .of_value (h.moveNext hc)

theorem uVarBLoop_leaves (budget i : Nat) (b : Byte) (result : U32) {s : State} (h : s.CursorIn .bitb) :
    (uVarBLoop budget i b result s).Leaves (fun _ t => t.CursorIn .bitb) fun _ => True := by
  induction budget generalizing i b result s with
  | zero =>
    unfold uVarBLoop
    split
    · exact .of_value h
    · exact .of_stuck _
  | succ budget ih =>
    unfold uVarBLoop
    split
    · exact .of_value h
    · exact (rawByteB_leaves h).bind fun c t ht => ih _ _ _ ht

theorem uVarB_leaves {s : State} (h : s.CursorIn .bitb) :
    (uVarB s).Leaves (fun _ t => t.CursorIn .bitb) fun _ => True := by
  unfold uVarB
  refine (isZeroB_leaves h).bind fun zero t ht => ?_
  split
  · exact .of_value ht
  · exact (rawByteB_leaves ht).bind fun b u hu => uVarBLoop_leaves _ _ _ _ hu

/-! ### Every command -/

/-- The pseudocode keeps the cursor's invariant, whether it answers or raises. -/
abbrev Reply.KeepsCursor {α : Type} (r : Reply α) : Prop := r.Leaves (fun _ t => t.CursorInv) State.CursorInv

theorem readVarint_keepsCursor {s : State} (h : s.CursorInv) : (readVarint s).KeepsCursor := by
  unfold readVarint
  cases hm : s.mode with
  | byte =>
    refine (u5_leaves s).mono (fun _ t ht => ?_) (fun t ht => ?_)
    · obtain ⟨p, rfl, hmin, hmax⟩ := ht
      exact h.setPos (by simp [hm]) hmin hmax
    · exact ht ▸ h
  | bita => exact .drawOnRaise ⟨hm, h⟩ nofun (uVarA_leaves ⟨hm, h⟩) (uVarA_decodes s)
  | bitb => exact .drawOnRaise ⟨hm, h⟩ nofun (uVarB_leaves ⟨hm, h⟩) (uVarB_decodes s)

theorem readOne_keepsCursor (f : U32 → Value) {s : State} (h : s.CursorInv) : (readOne f s).KeepsCursor :=
  (readVarint_keepsCursor h).bind fun _ _ ht => .of_value ht

theorem readTwo_keepsCursor (f : U32 → U32 → Value) {s : State} (h : s.CursorInv) : (readTwo f s).KeepsCursor :=
  (readVarint_keepsCursor h).bind fun _ _ ht => (readVarint_keepsCursor ht).bind fun _ _ hu => .of_value hu

theorem openAs_keepsCursor (m : Mode) (a : Arg) {s : State} (h : s.CursorInv) : (openAs m a s).KeepsCursor :=
  .of_value
    { config := h.config
      pos_min := (argValue_range h.config a).1
      pos_max := (argValue_range h.config a).2
      cache := nofun
      bitoff := fun _ => rfl }

theorem seek_cursorInv {s : State} (h : s.CursorInv) {p : Int} (hp : posMin s.params ≤ p ∧ p ≤ posMax s.params) :
    (seek p s).CursorInv := by
  unfold seek
  split
  · exact (h.setPos_dropCache hp).setBitoff fun _ => rfl
  · exact h.setPos_dropCache hp

theorem skipBy_keepsCursor (n : Int) {s : State} (h : s.CursorInv) : (skipBy n s).KeepsCursor := by
  unfold skipBy
  split
  · exact .of_raised h
  · exact .of_value (seek_cursorInv h (by omega))

/-- The pseudocode of every command that the mode admits keeps the cursor's invariant. `read.byte` moves `POS` with no
look at the cache, which only `BYTE` mode lets it do. -/
theorem bodyOf_keepsCursor {i : Instr} {s : State} (h : s.CursorInv) (hadm : ¬ (s.mode ≠ .byte ∧ i ∈ byteCodecOnly)) :
    (bodyOf i s).KeepsCursor := by
  cases i with
  | openByte a => exact openAs_keepsCursor _ a h
  | openBita a => exact openAs_keepsCursor _ a h
  | openBitb a => exact openAs_keepsCursor _ a h
  | getpos => exact .of_value h
  | setpos a => exact .of_value (seek_cursorInv h (argValue_range h.config a))
  | skip a => exact skipBy_keepsCursor _ h
  | readUint => exact readOne_keepsCursor _ h
  | readSint => exact readOne_keepsCursor _ h
  | readBool => exact readOne_keepsCursor _ h
  | readI8 => exact readOne_keepsCursor _ h
  | readI16 => exact readOne_keepsCursor _ h
  | readChar16 => exact readOne_keepsCursor _ h
  | readF32 => exact readOne_keepsCursor _ h
  | readF64 => exact readTwo_keepsCursor _ h
  | readI64 => exact readTwo_keepsCursor _ h
  | peek a =>
    refine memRead_bind_leaves h fun b _ => ?_
    exact .of_value h
  | readByte =>
    have hm : s.mode = .byte := by simpa [byteCodecOnly] using hadm
    refine memRead_bind_leaves h fun b hb => ?_
    obtain ⟨hmin, hmax⟩ := bufByte_some hb
    exact .of_value (h.setPos (by simp [hm]) (by omega) (by omega))

/-! ## The invariant of the states between commands -/

/-- The invariant's other half, the buffer and the fault register, is not the pseudocode's to write. -/
theorem State.Inv.of_onlyRegisters {s t : State} (h : s.Inv) (ht : OnlyRegisters s t) (hcur : t.CursorInv) :
    t.Inv := by
  obtain ⟨hparams, hbuf, hflt, hcause, hinfo, -, -⟩ := ht.fields
  exact
    { memory := hbuf ▸ h.memory
      extent := by rw [hbuf, hparams]; exact h.extent
      pos_min := hcur.pos_min
      pos_max := hcur.pos_max
      cache := hcur.cache
      bitoff := hcur.bitoff
      no_fault := by rw [hflt, hcause, hinfo]; exact h.no_fault
      fault := by rw [hflt, hcause]; exact h.fault }

theorem State.Inv.answered {s : State} (h : s.Inv) (v : Option Value) : (s.answered v).Inv := { h with }

theorem State.Inv.setInbox {s : State} (h : s.Inv) (es : List HostEvent) : (s.setInbox es).Inv := { h with }

theorem State.Inv.faulted {s : State} (h : s.Inv) {code : BitVec 4} (hcode : code = 1 ∨ code = 2 ∨ code = 3)
    (info : BitVec 64) : (s.faulted code info).Inv :=
  { h with
    no_fault := nofun
    fault := fun _ => by
      cases hflt : s.flt with
      | false => simpa [State.faulted, hflt] using hcode
      | true => simpa [State.faulted, hflt] using h.fault hflt }

theorem resetEvent_inv {s : State} (h : s.Inv) (hc : configOk s.params = true) : (resetEvent s).Inv where
  memory := h.memory
  extent := h.extent
  pos_min := posMin_le_zero _
  pos_max := (Int.natCast_nonneg _).trans (bufLen_le_posMax hc)
  cache := nofun
  bitoff _ := rfl
  no_fault _ := ⟨rfl, rfl⟩
  fault := nofun

theorem exec_inv {i : Instr} {s t : State} (h : s.Inv) (hc : configOk s.params = true) (ht : exec i s = .next t) :
    t.Inv := by
  have hkeeps := bodyOf_keepsCursor (i := i) (h.cursorInv hc)
  obtain hs | ⟨hadm, ⟨v, u, hu, hs⟩ | ⟨e, u, hu, hs⟩⟩ := exec_ends i s
  · cases hs.symm.trans ht
    exact h.faulted (by simp) _
  · cases hs.symm.trans ht
    exact (h.of_onlyRegisters ((bodyOf_runs i s).value v u hu).1 ((hkeeps hadm).value v u hu)).answered v
  · cases hs.symm.trans ht
    exact (h.of_onlyRegisters ((bodyOf_runs i s).raised e u hu).1 ((hkeeps hadm).raised e u hu)).faulted
      (raiseCode_cases e) _

/-- Settles O54, by what the host sent next. -/
theorem everyStepKeepsInv : Obligations.EveryStepKeepsInv := by
  intro s t h ht
  obtain ⟨-, hs⟩ | ⟨-, -, hs⟩ | ⟨rest, hc, -, hs⟩ | ⟨cw, arg, rest, _, -, -, -, hs⟩ |
    ⟨cw, arg, rest, i, hc, -, -, hs⟩ := step_cases s
  · cases hs.symm.trans ht
  · cases hs.symm.trans ht
    exact h
  · cases hs.symm.trans ht
    exact resetEvent_inv (h.setInbox rest) hc
  · cases hs.symm.trans ht
    exact (h.setInbox rest).faulted (by simp) _
  · exact exec_inv (h.setInbox rest) hc (hs.symm.trans ht)

/-! ## The cache of `BITA` (R26, R143) -/

/-- From two coherent states that differ in their caches at most, a varint of `BITA` is read alike: the first thing it
does is `CurA`, which gives both the byte at `POS` and the same valid cache, or faults in both. -/
theorem drawOnRaise_uVarA_congr {s t : State} (ht : t = { s with curb := t.curb, curv := t.curv }) (hs : s.Coherent)
    (htc : t.Coherent) : drawOnRaise (uVarA t) = drawOnRaise (uVarA s) := by
  have hpos : t.pos = s.pos := by rw [ht]
  have hbuf : bufByte t s.pos = bufByte s s.pos := by rw [ht]; rfl
  have hload : ∀ b, t.loadCache b = s.loadCache b := fun b => by rw [ht]; rfl
  have hdraw : drawCursor t = drawCursor s := by rw [ht]; rfl
  unfold uVarA isZeroA
  rw [curA_of_coherent hs, curA_of_coherent htc, hpos]
  cases hb : bufByte s s.pos with
  | some b => simp only [memRead_of_some hb, memRead_of_some (hbuf.trans hb), andThen_value, hload]
  | none => simp only [memRead_of_none hb, memRead_of_none (hbuf.trans hb), andThen_raised, drawOnRaise, hdraw]

theorem readVarint_bita {s : State} (h : s.mode = .bita) : readVarint s = drawOnRaise (uVarA s) := by
  simp only [readVarint, h]

/-- A read that every mode admits is `readOne` of its widening (R66). -/
theorem SharedRead.exec_eq {i : Instr} {f : U32 → Value} (h : SharedRead i f) (s : State) :
    exec i s = finish (readOne f s) := by
  have hbool : valueOfBool = fun u => if u = 0 then 0 else 1 := by
    funext u
    simp [valueOfBool]
  cases h with
  | uint => exact runCommand_admitted _ (admits_of_not_byteOnly _ rfl)
  | bool => exact (runCommand_admitted _ (admits_of_not_byteOnly _ rfl)).trans (by rw [hbool])
  | i8 => exact runCommand_admitted _ (admits_of_not_byteOnly _ rfl)

/-- Settles O46: an empty cache is coherent whatever byte is in it. -/
theorem cacheHitEqualsAFreshRead : Obligations.CacheHitEqualsAFreshRead := by
  intro s c i f hi hm hs
  have hread : readVarint { s with curb := c, curv := false } = readVarint s := by
    rw [readVarint_bita hm, readVarint_bita (s := { s with curb := c, curv := false }) hm]
    exact drawOnRaise_uVarA_congr (s := s) rfl hs (coherent_of_curv rfl)
  rw [hi.exec_eq, hi.exec_eq, readOne, hread, readOne]

/-! ## The byte of an empty cache (R26, R32) -/

/-- `t` is `s` but for `CURB`, and that only while the cache is empty. -/
def DiffersInStaleByte (s t : State) : Prop := ∃ c, t = s.setCurb c ∧ (s.curv = true → c = s.curb)

theorem DiffersInStaleByte.refl (s : State) : DiffersInStaleByte s s := ⟨s.curb, rfl, fun _ => rfl⟩

theorem DiffersInStaleByte.eq_of_curv {s t : State} (h : DiffersInStaleByte s t) (hv : s.curv = true) : t = s := by
  obtain ⟨c, rfl, hc⟩ := h
  rw [hc hv]
  rfl

section Fields
variable {s t : State} (h : DiffersInStaleByte s t)
include h

theorem DiffersInStaleByte.params : t.params = s.params := by
  obtain ⟨c, rfl, -⟩ := h
  rfl

theorem DiffersInStaleByte.mode : t.mode = s.mode := by
  obtain ⟨c, rfl, -⟩ := h
  rfl

theorem DiffersInStaleByte.pos : t.pos = s.pos := by
  obtain ⟨c, rfl, -⟩ := h
  rfl

theorem DiffersInStaleByte.bitoff : t.bitoff = s.bitoff := by
  obtain ⟨c, rfl, -⟩ := h
  rfl

theorem DiffersInStaleByte.bufByte (idx : Int) : bufByte t idx = bufByte s idx := by
  obtain ⟨c, rfl, -⟩ := h
  rfl

end Fields

/-- Two pieces of pseudocode end alike: in one value, one `raise` or one stop, and in states that differ in a stale
`CURB` at most. -/
inductive Reply.Alike {α : Type} : Reply α → Reply α → Prop where
  | value (a : α) {s t : State} (h : DiffersInStaleByte s t) : Alike (.value a s) (.value a t)
  | raised (e : Raise) {s t : State} (h : DiffersInStaleByte s t) : Alike (.raised e s) (.raised e t)
  | stuck (f : Fault) : Alike (.stuck f) (.stuck f)

section Alike
variable {α β : Type}

theorem Reply.Alike.refl (r : Reply α) : r.Alike r := by
  cases r with
  | value a s => exact .value a (.refl s)
  | raised e s => exact .raised e (.refl s)
  | stuck f => exact .stuck f

theorem Reply.Alike.bind {r r' : Reply α} {k k' : α → State → Reply β} (h : r.Alike r')
    (hk : ∀ a s t, DiffersInStaleByte s t → (k a s).Alike (k' a t)) : (r.andThen k).Alike (r'.andThen k') := by
  cases h with
  | value a hst => exact hk a _ _ hst
  | raised e hst => exact .raised e hst
  | stuck f => exact .stuck f

theorem Reply.Alike.ite {p q : Prop} [Decidable p] [Decidable q] {r₁ r₂ r₁' r₂' : Reply α} (hpq : p ↔ q)
    (h₁ : r₁.Alike r₁') (h₂ : r₂.Alike r₂') : (if p then r₁ else r₂).Alike (if q then r₁' else r₂') := by
  by_cases hp : p
  · rwa [if_pos hp, if_pos (hpq.1 hp)]
  · rwa [if_neg hp, if_neg (mt hpq.2 hp)]

/-- The draws overwrite `CURB`. -/
theorem Reply.Alike.drawOnRaise {r r' : Reply α} (h : r.Alike r') : (drawOnRaise r).Alike (drawOnRaise r') := by
  cases h with
  | value a hst => exact .value a hst
  | raised e hst =>
    obtain ⟨c, rfl, -⟩ := hst
    exact .refl _
  | stuck f => exact .stuck f

theorem memRead_alike (idx : Int) {s t : State} (h : DiffersInStaleByte s t) :
    (memRead idx s).Alike (memRead idx t) := by
  unfold memRead
  rw [h.bufByte]
  cases bufByte s idx with
  | some b => exact .value b h
  | none => exact .raised _ h

end Alike

theorem u5Loop_alike (left : Nat) (p : Int) (sum : U32) {s t : State} (h : DiffersInStaleByte s t) :
    (u5Loop left p sum s).Alike (u5Loop left p sum t) := by
  induction left generalizing sum s t with
  | zero =>
    unfold u5Loop
    refine (memRead_alike _ h).bind ?_
    rintro b s _ ⟨c, rfl, hc⟩
    exact .ite .rfl (.value _ ⟨c, rfl, hc⟩) (.value _ ⟨c, rfl, hc⟩)
  | succ left ih =>
    unfold u5Loop
    refine (memRead_alike _ h).bind ?_
    rintro b s _ ⟨c, rfl, hc⟩
    exact .ite .rfl (.value _ ⟨c, rfl, hc⟩) (.ite .rfl (.value _ ⟨c, rfl, hc⟩) (ih _ ⟨c, rfl, hc⟩))

theorem u5_alike {s t : State} (h : DiffersInStaleByte s t) : (u5 s).Alike (u5 t) := by
  unfold u5
  rw [h.pos]
  refine (memRead_alike _ h).bind ?_
  rintro b s _ ⟨c, rfl, hc⟩
  exact .ite .rfl (.value _ ⟨c, rfl, hc⟩) (u5Loop_alike _ _ _ ⟨c, rfl, hc⟩)

theorem isZeroB_alike {s t : State} (h : DiffersInStaleByte s t) : (isZeroB s).Alike (isZeroB t) := by
  unfold isZeroB
  rw [h.pos]
  refine (memRead_alike _ h).bind ?_
  rintro b s _ ⟨c, rfl, hc⟩
  exact .ite .rfl (.value _ ⟨c, rfl, hc⟩) (.ite .rfl (.value _ ⟨c, rfl, hc⟩) (.value _ ⟨c, rfl, hc⟩))

theorem rawByteB_alike {s t : State} (h : DiffersInStaleByte s t) : (rawByteB s).Alike (rawByteB t) := by
  unfold rawByteB
  rw [h.pos, h.bitoff]
  split
  · refine (memRead_alike _ h).bind ?_
    rintro b s _ ⟨c, rfl, hc⟩
    exact .value _ ⟨c, rfl, hc⟩
  · refine (memRead_alike _ h).bind ?_
    rintro b s _ ⟨c, rfl, hc⟩
    refine (memRead_alike _ ⟨c, rfl, hc⟩).bind ?_
    rintro n s _ ⟨c, rfl, hc⟩
    exact .value _ ⟨c, rfl, hc⟩

theorem uVarBLoop_alike (budget i : Nat) (b : Byte) (result : U32) {s t : State} (h : DiffersInStaleByte s t) :
    (uVarBLoop budget i b result s).Alike (uVarBLoop budget i b result t) := by
  induction budget generalizing i b result s t with
  | zero =>
    unfold uVarBLoop
    rw [h.params]
    split
    · exact .value _ h
    · exact .stuck _
  | succ budget ih =>
    unfold uVarBLoop
    rw [h.params]
    split
    · exact .value _ h
    · refine (rawByteB_alike h).bind ?_
      rintro b s _ ⟨c, rfl, hc⟩
      exact ih _ _ _ ⟨c, rfl, hc⟩

theorem uVarB_alike {s t : State} (h : DiffersInStaleByte s t) : (uVarB s).Alike (uVarB t) := by
  unfold uVarB
  refine (isZeroB_alike h).bind fun zero s t hst => ?_
  split
  · exact .value _ hst
  · refine (rawByteB_alike hst).bind ?_
    rintro b s _ ⟨c, rfl, hc⟩
    exact uVarBLoop_alike _ _ _ _ ⟨c, rfl, hc⟩

theorem readVarint_alike {s t : State} (h : DiffersInStaleByte s t) : (readVarint s).Alike (readVarint t) := by
  unfold readVarint
  rw [h.mode]
  cases s.mode with
  | byte => exact u5_alike h
  | bita =>
    cases hv : s.curv with
    | true => rw [h.eq_of_curv hv]; exact .refl _
    | false =>
      obtain ⟨c, rfl, -⟩ := h
      have hread := drawOnRaise_uVarA_congr (t := s.setCurb c) rfl (coherent_of_curv hv) (coherent_of_curv hv)
      dsimp only
      rw [hread]
      exact .refl _
  | bitb => exact (uVarB_alike h).drawOnRaise

theorem readOne_alike (f : U32 → Value) {s t : State} (h : DiffersInStaleByte s t) :
    (readOne f s).Alike (readOne f t) :=
  (readVarint_alike h).bind fun _ _ _ hst => .value _ hst

theorem readTwo_alike (f : U32 → U32 → Value) {s t : State} (h : DiffersInStaleByte s t) :
    (readTwo f s).Alike (readTwo f t) :=
  (readVarint_alike h).bind fun _ _ _ hst => (readVarint_alike hst).bind fun _ _ _ hst => .value _ hst

theorem seek_differsInStaleByte (p : Int) (s : State) (c : Byte) :
    DiffersInStaleByte (seek p s) (seek p (s.setCurb c)) := by
  unfold seek
  rw [State.setCurb_params]
  split <;> exact ⟨c, rfl, nofun⟩

theorem skipBy_alike (n : Int) {s t : State} (h : DiffersInStaleByte s t) : (skipBy n s).Alike (skipBy n t) := by
  obtain ⟨c, rfl, hc⟩ := h
  exact .ite .rfl (.raised _ ⟨c, rfl, hc⟩) (.value _ (seek_differsInStaleByte _ s c))

theorem openAs_alike (m : Mode) (a : Arg) {s t : State} (h : DiffersInStaleByte s t) :
    (openAs m a s).Alike (openAs m a t) := by
  obtain ⟨c, rfl, -⟩ := h
  exact .value _ ⟨c, rfl, nofun⟩

/-- The pseudocode of every command ends alike whatever byte an empty cache holds. -/
theorem bodyOf_alike (i : Instr) {s t : State} (h : DiffersInStaleByte s t) : (bodyOf i s).Alike (bodyOf i t) := by
  cases i with
  | openByte a => exact openAs_alike _ a h
  | openBita a => exact openAs_alike _ a h
  | openBitb a => exact openAs_alike _ a h
  | getpos =>
    obtain ⟨c, rfl, hc⟩ := h
    exact .value _ ⟨c, rfl, hc⟩
  | setpos a =>
    obtain ⟨c, rfl, hc⟩ := h
    exact .value _ (seek_differsInStaleByte _ s c)
  | skip a =>
    obtain ⟨c, rfl, hc⟩ := h
    exact skipBy_alike _ ⟨c, rfl, hc⟩
  | readUint => exact readOne_alike _ h
  | readSint => exact readOne_alike _ h
  | readBool => exact readOne_alike _ h
  | readI8 => exact readOne_alike _ h
  | readI16 => exact readOne_alike _ h
  | readChar16 => exact readOne_alike _ h
  | readF32 => exact readOne_alike _ h
  | readF64 => exact readTwo_alike _ h
  | readI64 => exact readTwo_alike _ h
  | peek a =>
    obtain ⟨c, rfl, hc⟩ := h
    exact (memRead_alike _ ⟨c, rfl, hc⟩).bind fun _ _ _ hst => .value _ hst
  | readByte =>
    obtain ⟨c, rfl, hc⟩ := h
    refine (memRead_alike _ ⟨c, rfl, hc⟩).bind fun _ s t ⟨d, ht, hd⟩ => ?_
    subst ht
    exact .value _ ⟨d, rfl, hd⟩

theorem DiffersInStaleByte.answered {s t : State} (h : DiffersInStaleByte s t) (v : Option Value) :
    DiffersInStaleByte (s.answered v) (t.answered v) := by
  obtain ⟨c, rfl, hc⟩ := h
  exact ⟨c, rfl, hc⟩

theorem DiffersInStaleByte.faulted {s t : State} (h : DiffersInStaleByte s t) (code : BitVec 4) (info : BitVec 64) :
    DiffersInStaleByte (s.faulted code info) (t.faulted code info) := by
  obtain ⟨c, rfl, hc⟩ := h
  exact ⟨c, rfl, hc⟩

theorem finish_alike {r r' : Reply (Option Value)} (h : r.Alike r') (hr : r.Ends) :
    ∃ t u, finish r = .next t ∧ finish r' = .next u ∧ DiffersInStaleByte t u := by
  cases h with
  | value v hst => exact ⟨_, _, finish_value v _, finish_value v _, hst.answered v⟩
  | raised e hst => exact ⟨_, _, finish_raised e _, finish_raised e _, hst.faulted _ _⟩
  | stuck f => exact absurd rfl (hr f)

theorem exec_alike (i : Instr) {s s' : State} (h : DiffersInStaleByte s s') :
    ∃ t u, exec i s = .next t ∧ exec i s' = .next u ∧ DiffersInStaleByte t u := by
  rw [exec_eq_runCommand, exec_eq_runCommand]
  unfold runCommand
  rw [h.mode]
  split
  · exact finish_alike (bodyOf_alike i h) (bodyOf_ends i s)
  · exact ⟨_, _, rfl, rfl, by simpa only [takeFault_eq] using h.faulted _ _⟩

/-- Settles O47: no command looks at the byte of an empty cache. -/
theorem staleCacheByteIsNeverRead : Obligations.StaleCacheByteIsNeverRead := by
  intro s c i hv
  have hst : DiffersInStaleByte s { s with curb := c } := ⟨c, rfl, by simp [hv]⟩
  obtain ⟨t, u, ht, hu, d, rfl, hd⟩ := exec_alike i hst
  exact ⟨t, _, ht, hu, rfl, hd⟩

end Sys2Proof.Machine

/-! PROOFS. The statements on the buffer (spec/20_memory.md): the bytes the host places, the merge of two bytes at a bit
offset, that no step writes the buffer, and that steps of different units commute. -/

namespace Sys2Proof.Machine

/-! ## Placing bytes (R40, R192) -/

theorem Memory.wf_nil : Memory.wf [] := by simp [Memory.wf]

/-- Placing bytes from `a` on leaves every index below `a` alone. -/
theorem Memory.read_place_of_lt {m : Memory} (h : Memory.wf m) {a n : Nat} (hn : n < a) (bs : List Byte) :
    (m.place a bs).read n = m.read n := by
  induction bs generalizing m a with
  | nil => rfl
  | cons b bs ih => rw [Memory.place, ih (m.write_wf a b h) (by omega), m.read_write_ne a n b h hn.ne]

theorem Memory.read_place_of_getElem? {m : Memory} (h : Memory.wf m) (a : Nat) {bs : List Byte} {k : Nat} {b : Byte}
    (hk : bs[k]? = some b) : (m.place a bs).read (a + k) = b := by
  induction bs generalizing m a k with
  | nil => simp at hk
  | cons c cs ih =>
    have hw := m.write_wf a c h
    cases k with
    | zero =>
      obtain rfl : c = b := by simpa using hk
      exact (Memory.read_place_of_lt hw (Nat.lt_add_one a) cs).trans (m.read_write_same a c h)
    | succ k =>
      rw [Memory.place, ← ih hw (a + 1) (List.getElem?_cons_succ ▸ hk), Nat.add_right_comm, Nat.add_assoc]

theorem bufByte_withBuffer (s : State) (bytes : List Byte) (n : Nat) :
    bufByte (s.withBuffer bytes) n = bytes[n]? := by
  cases hn : bytes[n]? with
  | none =>
    have hlen : bytes.length ≤ n := List.getElem?_eq_none_iff.1 hn
    exact bufByte_eq_none.2 fun hin => absurd (Int.ofNat_lt.1 hin.2) hlen.not_gt
  | some b =>
    have hlen : n < bytes.length := (List.getElem?_eq_some_iff.1 hn).1
    have hread := Memory.read_place_of_getElem? Memory.wf_nil 0 hn
    rw [Nat.zero_add] at hread
    simp [bufByte, State.withBuffer, hlen, hread]

/-- Settles O20: the bytes are placed one by one into an empty memory in canonical form. -/
theorem placedBytesAreRead : Obligations.PlacedBytesAreRead := by
  intro s bytes
  refine ⟨Memory.place_wf bytes [] 0 Memory.wf_nil, rfl, bufByte_withBuffer s bytes, fun idx hidx => ?_⟩
  exact bufByte_eq_none.2 fun hin => hin.1.not_gt hidx

/-! ## The merge at a bit offset (R45, R145, R148) -/

/-- A bit of the merge comes from `c` moved up by the offset or from `n` moved down by the rest of the byte. -/
theorem getLsbD_mergeBytes (c n : Byte) (off : BitVec 3) {j : Nat} (hj : j < 8) :
    (mergeBytes c n off).getLsbD j =
      (decide (off.toNat ≤ j) && c.getLsbD (j - off.toNat) || n.getLsbD (8 - off.toNat + j)) := by
  simp only [mergeBytes, BitVec.getLsbD_ofNat, hj, decide_true, Bool.true_and, Nat.testBit_or, Nat.testBit_shiftLeft,
    Nat.testBit_shiftRight, BitVec.testBit_toNat, ge_iff_le]

/-- Settles O35: of the two bytes only one has a bit at each place, `c` above the offset and `n` below it. -/
theorem mergeIsTheNextEightBits : Obligations.MergeIsTheNextEightBits := by
  intro c n off k hk
  have hoff : off.toNat < 8 := off.isLt
  rw [getLsbD_mergeBytes c n off (by omega)]
  split
  case isTrue hlt =>
    have habove : n.getLsbD (8 - off.toNat + (7 - k)) = false := n.getLsbD_of_ge _ (by omega)
    have hplace : 7 - k - off.toNat = 7 - (off.toNat + k) := by omega
    simp [habove, hplace, show off.toNat ≤ 7 - k by omega]
  case isFalse hge =>
    have hplace : 8 - off.toNat + (7 - k) = 7 - (off.toNat + k - 8) := by omega
    simp [hplace, show ¬ off.toNat ≤ 7 - k by omega]

/-! ## Steps and the buffer (R42, R53, R180) -/

/-- Settles O51: an event's answer leaves the parameters and the buffer as they were. -/
theorem noStepChangesParamsOrBuffer : Obligations.NoStepChangesParamsOrBuffer :=
  fun _ _ => step_params_buf

theorem stepAt_of_no_unit {y : System} {k : Nat} (hk : y.units[k]? = none) : y.stepAt k = .next y := by
  simp [System.stepAt, hk]

theorem stepAt_of_step {y : System} {k : Nat} {s t : State} (hk : y.units[k]? = some s) (ht : step s = .next t) :
    y.stepAt k = .next { units := y.units.set k t } := by
  simp [System.stepAt, hk, ht]

theorem stepAt_getElem?_ne {y z : System} {j k : Nat} (h : y.stepAt k = .next z) (hjk : j ≠ k) :
    z.units[j]? = y.units[j]? := by
  obtain ⟨-, rfl⟩ | ⟨s, t, -, -, rfl⟩ := stepAt_eq_next h
  · rfl
  · exact List.getElem?_set_ne hjk.symm

/-- Settles O58: the step of a unit reads and replaces that unit alone. -/
theorem stepsOfDifferentUnitsCommute : Obligations.StepsOfDifferentUnitsCommute := by
  intro y y₁ y₂ j k hjk hj hk
  have hsame : y₁.units[k]? = y.units[k]? := stepAt_getElem?_ne hj hjk.symm
  obtain ⟨hnone, rfl⟩ | ⟨s, s', hs, hstep, rfl⟩ := stepAt_eq_next hj
  · exact ⟨y₂, hk, stepAt_of_no_unit ((stepAt_getElem?_ne hk hjk).trans hnone)⟩
  · obtain ⟨hnone, rfl⟩ | ⟨t, t', ht, hstep', rfl⟩ := stepAt_eq_next hk
    · exact ⟨y, stepAt_of_no_unit (hsame.symm.trans hnone), hj⟩
    · have hs' : (y.units.set k t')[j]? = some s := (List.getElem?_set_ne hjk.symm).trans hs
      refine ⟨_, stepAt_of_step (hsame.symm.trans ht) hstep', ?_⟩
      rw [stepAt_of_step hs' hstep, List.set_comm _ _ hjk]

end Sys2Proof.Machine

/-! PROOFS. The statements on the command word (spec/30_encoding.md): that decoding and encoding agree, which words are
illegal and what a step does with them, which commands a mode admits, and the length of a varint in the buffer. -/

namespace Sys2Proof

/-! ## The decoder (R60 to R67) -/

/-- The cases of R65 that do not look at the mode. -/
def Malformed (cw : CommandWord) : Prop :=
  rsvField cw ≠ 0 ∨ funcField cw = 0xF ∨ (funcField cw = 0 ∧ modeField cw = 3) ∨ (funcField cw ≠ 0 ∧ modeField cw ≠ 0)

@[simp] theorem toNat_argField (posW : Nat) (arg : Arg) : (argField posW arg).toNat = arg.toNat % 2 ^ posW := by
  rw [argField, BitVec.toNat_ofNat, Nat.mod_eq_of_lt ((Nat.mod_le _ _).trans_lt arg.isLt)]

theorem argField_of_lt {posW : Nat} {arg : Arg} (h : arg.toNat < 2 ^ posW) : argField posW arg = arg :=
  BitVec.eq_of_toNat_eq ((toNat_argField posW arg).trans (Nat.mod_eq_of_lt h))

/-- What the opcode map makes of the fields: the command whose word they are, with the argument where it has one. -/
theorem decodeFunc_eq_ok {func mf : Nat} {arg : Arg} {i : Instr} (h : decodeFunc func mf arg = .ok i)
    (hmf : func ≠ 0 → mf = 0) :
    (commandWord i).toNat = 16 * mf + func ∧ (i.arg? = none ∨ i.arg? = some arg) := by
  unfold decodeFunc at h
  split at h
  case h_1 => split at h <;> cases h <;> exact ⟨rfl, .inr rfl⟩
  case h_16 => cases h
  all_goals
    cases h
    obtain rfl := hmf nofun
    exact ⟨rfl, by simp [Instr.arg?]⟩

theorem decodeFunc_eq_error {func mf : Nat} {arg : Arg} {e : DecodeError} (h : decodeFunc func mf arg = .error e) :
    (func = 0 ∧ 3 ≤ mf) ∨ 15 ≤ func := by
  unfold decodeFunc at h
  split at h
  case h_1 =>
    split at h
    case h_4 => exact .inl ⟨rfl, by grind⟩
    all_goals cases h
  case h_16 => exact .inr (by grind)
  all_goals cases h

theorem decode_of_not_malformed {cw : CommandWord} (h : ¬ Malformed cw) (posW : Nat) (arg : Arg) :
    decode posW cw arg = decodeFunc (funcField cw) (modeField cw) (argField posW arg) := by
  simp only [Malformed, not_or] at h
  obtain ⟨hrsv, hfunc, hopen, hmf⟩ := h
  rw [decode, if_neg hrsv, if_neg hfunc, if_neg hopen, if_neg hmf]

theorem not_malformed_of_decode {posW : Nat} {cw : CommandWord} {arg : Arg} {i : Instr}
    (h : decode posW cw arg = .ok i) : ¬ Malformed cw := by
  unfold decode at h
  split_ifs at h with hrsv hfunc hopen hmf
  simp only [Malformed, not_or]
  exact ⟨hrsv, hfunc, hopen, hmf⟩

/-- Every word the decoder rejects is one of the four cases: the opcode map has a row for all others. -/
theorem malformed_of_decode_error {posW : Nat} {cw : CommandWord} {arg : Arg} {e : DecodeError}
    (h : decode posW cw arg = .error e) : Malformed cw := by
  by_contra hlegal
  rw [decode_of_not_malformed hlegal] at h
  have hfunc : funcField cw < 16 := Nat.mod_lt _ (by decide)
  have hmf : modeField cw < 4 := Nat.mod_lt _ (by decide)
  simp only [Malformed, not_or] at hlegal
  have := decodeFunc_eq_error h
  omega

theorem not_malformed_commandWord (i : Instr) : ¬ Malformed (commandWord i) := by
  unfold Malformed
  cases i <;> simp only [commandWord] <;> decide

/-- A command's word decodes to the command where the argument port carries its argument (R62 to R64). -/
theorem decode_commandWord {posW : Nat} {arg : Arg} {i : Instr}
    (h : i.arg? = none ∨ i.arg? = some (argField posW arg)) :
    decode posW (commandWord i) arg = .ok i := by
  rw [decode_of_not_malformed (not_malformed_commandWord i)]
  generalize argField posW arg = a at h
  cases i <;> simp only [Instr.arg?, commandWord, reduceCtorEq, Option.some.injEq, false_or] at h ⊢ <;>
    subst_vars <;> rfl

/-- The decoder, said once: a pair decodes to the command whose word it carries, with the low `POS_W` bits of the
argument port where the command has an argument. -/
theorem decode_eq_ok_iff {posW : Nat} {cw : CommandWord} {arg : Arg} {i : Instr} :
    decode posW cw arg = .ok i ↔ commandWord i = cw ∧ (i.arg? = none ∨ i.arg? = some (argField posW arg)) := by
  constructor
  · intro h
    have hlegal := not_malformed_of_decode h
    rw [decode_of_not_malformed hlegal] at h
    simp only [Malformed, not_or] at hlegal
    obtain ⟨hword, harg⟩ := decodeFunc_eq_ok h (by omega)
    refine ⟨BitVec.eq_of_toNat_eq (hword.trans ?_), harg⟩
    unfold rsvField funcField modeField at *
    omega
  · rintro ⟨rfl, harg⟩
    exact decode_commandWord harg

theorem wf_of_arg_none {i : Instr} (h : i.arg? = none) (posW : Nat) : i.wf posW = true := by simp [Instr.wf, h]

theorem wf_iff_of_arg_some {i : Instr} {a : Arg} (h : i.arg? = some a) (posW : Nat) :
    i.wf posW = true ↔ a.toNat < 2 ^ posW := by simp [Instr.wf, h]

end Sys2Proof

namespace Sys2Proof.Machine

/-- Settles O1: both directions are `decode_eq_ok_iff`, and an argument of `POS_W` bits is its own low `POS_W` bits. -/
theorem roundTripOfEveryCommand : Obligations.RoundTripOfEveryCommand := by
  refine ⟨fun posW i hwf => decode_eq_ok_iff.2 ⟨rfl, ?_⟩, fun posW cw arg i h => ?_⟩
  · cases harg : i.arg? with
    | none => exact .inl rfl
    | some a =>
      have hlt : a.toNat < 2 ^ posW := (wf_iff_of_arg_some harg posW).1 hwf
      exact .inr (by simp [encode, commandArg, harg, argField_of_lt hlt])
  · obtain ⟨hword, harg | harg⟩ := decode_eq_ok_iff.1 h
    · exact ⟨hword, wf_of_arg_none harg posW, by simp [harg]⟩
    · refine ⟨hword, (wf_iff_of_arg_some harg posW).2 ?_, ?_⟩
      · rw [toNat_argField]
        exact Nat.mod_lt _ (Nat.two_pow_pos posW)
      · simp [harg]

/-- Settles O2: each word is the one `commandWord` has for its row. -/
theorem tableWordsDecodeToTheirRows : Obligations.TableWordsDecodeToTheirRows := by
  have h7 : argField 32 7 = 7 := argField_of_lt (by decide)
  have hrow (i : Instr) (h : i.arg? = none ∨ i.arg? = some 7) : decode 32 (commandWord i) 7 = .ok i :=
    decode_commandWord (by rwa [h7])
  exact ⟨hrow (.openByte 7) (.inr rfl), hrow (.openBitb 7) (.inr rfl), hrow (.skip 7) (.inr rfl),
    hrow .readI8 (.inl rfl), hrow .readF64 (.inl rfl), hrow (.peek 7) (.inr rfl)⟩

/-! ## A step on a command word (R60, R65, R67, R80) -/

section CommandStep
variable {s : State} {cw : CommandWord} {arg : Arg} {rest : List HostEvent} (hc : configOk s.params = true)
  (hin : s.inbox = .command cw arg :: rest)
include hc hin

theorem step_of_decode_ok {i : Instr} (hd : decode s.params.posW cw arg = .ok i) :
    step s = exec i (s.setInbox rest) := by
  simp [step, fetch, hc, hin, hd]

theorem step_of_decode_error {e : DecodeError} (hd : decode s.params.posW cw arg = .error e) :
    step s = .next ((s.setInbox rest).faulted 2 (cw.setWidth 64)) := by
  simp [step, fetch, hc, hin, hd, takeFault_eq, raiseCode, raiseInfo]

end CommandStep

/-- Settles O7: a decoded command is handed to `exec`. -/
theorem stepRunsTheDecodedCommand : Obligations.StepRunsTheDecodedCommand :=
  fun _ _ _ _ _ hc hin hd => step_of_decode_ok hc hin hd

/-- Settles O5: a word that decodes to a command without an argument does so whatever is on the argument port. -/
theorem unusedArgumentIsIgnored : Obligations.UnusedArgumentIsIgnored := by
  intro s cw a b rest i ha hnone
  have hb : decode s.params.posW cw b = .ok i := decode_eq_ok_iff.2 ⟨(decode_eq_ok_iff.1 ha).1, .inl hnone⟩
  cases hc : configOk s.params with
  | false =>
    have hstep (c : Arg) : step { s with inbox := .command cw c :: rest } = .refused .badConfiguration :=
      step_of_configOk_false hc
    rw [hstep a, hstep b]
  | true =>
    have hstep (c : Arg) (hd : decode s.params.posW cw c = .ok i) :
        step { s with inbox := .command cw c :: rest } = exec i (s.setInbox rest) :=
      step_of_decode_ok (s := { s with inbox := .command cw c :: rest }) hc rfl hd
    rw [hstep a ha, hstep b hb]

/-! ## Illegal words and mode admission (R65, R66) -/

theorem toNat_rsvBits (cw : CommandWord) : (cw.extractLsb' 6 10).toNat = rsvField cw := by
  rw [BitVec.extractLsb'_toNat, Nat.shiftRight_eq_div_pow, rsvField]
  omega

theorem toNat_modeBits (cw : CommandWord) : (cw.extractLsb' 4 2).toNat = modeField cw := by
  rw [BitVec.extractLsb'_toNat, Nat.shiftRight_eq_div_pow, modeField]

theorem toNat_funcBits (cw : CommandWord) : (cw.extractLsb' 0 4).toNat = funcField cw := by
  rw [BitVec.extractLsb'_toNat, Nat.shiftRight_zero, funcField]

/-- The five cases of R65 are the four of `Malformed` and the mode check. -/
theorem illegalIn_iff (m : Mode) (cw : CommandWord) : IllegalIn m cw ↔ Malformed cw ∨
    (m ≠ .byte ∧ cw.extractLsb' 0 4 ∈ ([0x5, 0x8, 0x9, 0xA, 0xB, 0xC, 0xE] : List (BitVec 4))) := by
  simp only [IllegalIn, Malformed, or_assoc, ne_eq, ← toNat_rsvBits, ← toNat_modeBits, ← toNat_funcBits,
    ← BitVec.toNat_inj]
  rfl

/-- The operations of the mode check are those of the byte codec's commands. -/
theorem funcBits_commandWord_mem_iff (i : Instr) :
    (commandWord i).extractLsb' 0 4 ∈ ([0x5, 0x8, 0x9, 0xA, 0xB, 0xC, 0xE] : List (BitVec 4)) ↔ i ∈ byteCodecOnly := by
  rw [mem_byteCodecOnly]
  cases i <;> simp [commandWord, byteOnly]

theorem illegalIn_iff_of_decode_ok {posW : Nat} {cw : CommandWord} {arg : Arg} {i : Instr}
    (h : decode posW cw arg = .ok i) (m : Mode) : IllegalIn m cw ↔ m ≠ .byte ∧ i ∈ byteCodecOnly := by
  obtain rfl := (decode_eq_ok_iff.1 h).1
  rw [illegalIn_iff, funcBits_commandWord_mem_iff, or_iff_right (not_malformed_of_decode h)]

theorem exec_of_rejected {i : Instr} {s : State} (h : s.mode ≠ .byte ∧ i ∈ byteCodecOnly) :
    exec i s = .next (s.faulted 2 ((commandWord i).setWidth 64)) := by
  obtain ⟨-, hexec⟩ | ⟨hadm, -⟩ := exec_cases i s
  · exact hexec
  · exact absurd h hadm

/-- Settles O3, by what the decoder makes of the word: it rejects it, or it finds a command, which the mode may
reject. -/
theorem illegalWordsFaultWithNoOtherEffect : Obligations.IllegalWordsFaultWithNoOtherEffect := by
  intro s cw arg rest hc hin
  cases hd : decode s.params.posW cw arg with
  | error e =>
    have hillegal : IllegalIn s.mode cw := (illegalIn_iff _ _).2 (.inl (malformed_of_decode_error hd))
    exact ⟨fun _ => step_of_decode_error hc hin hd, fun h => absurd hillegal h⟩
  | ok i =>
    rw [illegalIn_iff_of_decode_ok hd]
    refine ⟨fun h => ?_, fun h => ⟨i, rfl, h⟩⟩
    rw [step_of_decode_ok hc hin hd, ← (decode_eq_ok_iff.1 hd).1]
    exact exec_of_rejected h

/-- The pseudocode of a command never raises `IllegalCommand`: only `Decode` does (R67). -/
theorem bodyOf_raiseCode_ne_two {i : Instr} {s t : State} {e : Raise} (h : bodyOf i s = .raised e t) :
    raiseCode e ≠ 2 := by
  obtain ⟨-, -, ⟨idx, rfl, -⟩ | ⟨n, rfl⟩⟩ := (bodyOf_runs i s).raised e t h <;> simp [raiseCode]

/-- Settles O4: outside the mode check a command ends as its pseudocode does. -/
theorem modeAdmission : Obligations.ModeAdmission := by
  refine fun i s => ⟨exec_of_rejected, fun hadm => ?_⟩
  obtain ⟨hno, -⟩ | ⟨-, hexec⟩ := exec_cases i s
  · exact absurd hno hadm
  rw [hexec]
  cases hbody : bodyOf i s with
  | value v t =>
    obtain ⟨-, -, -, -, -, -, hresponses⟩ := ((bodyOf_runs i s).value v t hbody).1.fields
    exact ⟨_, _, finish_value v t, by rw [State.answered, hresponses], by simp⟩
  | raised e t =>
    obtain ⟨-, -, -, -, -, -, hresponses⟩ := ((bodyOf_runs i s).raised e t hbody).1.fields
    exact ⟨_, _, finish_raised e t, by rw [State.faulted, hresponses], bodyOf_raiseCode_ne_two hbody⟩
  | stuck f => exact absurd hbody (bodyOf_ends i s f)

/-! ## The length of a varint (R70, R101) -/

theorem not_isContinuation_iff (p : Params) (b : Byte) : ¬ IsContinuation p b ↔ IsExcluded p b ∨ IsFinal p b := by
  unfold IsContinuation IsExcluded IsFinal
  omega

theorem bytesAt_cons_iff {s : State} {p : Int} {b : Byte} {bs : List Byte} :
    BytesAt s p (b :: bs) ↔ bufByte s p = some b ∧ BytesAt s (p + 1) bs := by
  refine ⟨fun h => ⟨by simpa using h 0 b rfl, fun k c hk => ?_⟩, fun h => bytesAt_cons h.1 h.2⟩
  rw [← h (k + 1) c hk]
  congr 1
  omega

theorem bytesAt_concat_iff {s : State} {p : Int} {bs : List Byte} {b : Byte} :
    BytesAt s p (bs ++ [b]) ↔ BytesAt s p bs ∧ bufByte s (p + bs.length) = some b := by
  induction bs generalizing p with
  | nil => simp [bytesAt_cons_iff, bytesAt_nil]
  | cons c cs ih =>
    have hidx : p + ((c :: cs).length : Int) = p + 1 + cs.length := by rw [List.length_cons]; omega
    rw [List.cons_append, bytesAt_cons_iff, bytesAt_cons_iff, ih, hidx, and_assoc]

/-- From every index the continuation bytes go on for `n` bytes, or up to one that is not there or is none. -/
theorem exists_continuation_bytes (s : State) (p : Int) (n : Nat) :
    ∃ bs, BytesAt s p bs ∧ (∀ b ∈ bs, IsContinuation s.params b) ∧ bs.length ≤ n ∧
      (bs.length < n → ∀ b, bufByte s (p + bs.length) = some b → ¬ IsContinuation s.params b) := by
  induction n generalizing p with
  | zero => exact ⟨[], bytesAt_nil s p, by simp, by simp, by simp⟩
  | succ n ih =>
    by_cases hgo : ∃ b, bufByte s p = some b ∧ IsContinuation s.params b
    · obtain ⟨b, hb, hcont⟩ := hgo
      obtain ⟨bs, hbytes, hall, hlen, hstop⟩ := ih (p + 1)
      have hidx : p + ((b :: bs).length : Int) = p + 1 + bs.length := by rw [List.length_cons]; omega
      refine ⟨b :: bs, bytesAt_cons hb hbytes, by simpa [hcont] using hall, by simpa using hlen, ?_⟩
      rw [hidx]
      simpa using hstop
    · exact ⟨[], bytesAt_nil s p, by simp, by simp, fun _ b hb hcont => hgo ⟨b, by simpa using hb, hcont⟩⟩

theorem VarintEnds.length_le {p : Params} {bs : List Byte} {next : Option Byte} (h : VarintEnds p bs next) :
    bs.length ≤ maxLength - 1 := by
  obtain ⟨-, hlen, -⟩ | ⟨init, last, rfl, -, hlen, -⟩ | ⟨-, hcap⟩ := h
  · exact hlen.trans (by decide)
  · rw [List.length_append]
    exact Nat.succ_le_succ hlen
  · exact hcap.le

theorem VarintEnds.exists_varintAt {s : State} {p : Int} {lead : Byte} {bs : List Byte}
    (h : VarintEnds s.params bs (bufByte s (p + bs.length + 1))) (hlead : bufByte s p = some lead)
    (hgo : ¬ LeadEnds s.params lead) (hbytes : BytesAt s (p + 1) bs) :
    ∃ v n, VarintAt s p v n ∧ 1 ≤ n ∧ n ≤ 5 :=
  ⟨_, bs.length + 1, ⟨lead, bs, bytesAt_cons hlead hbytes, rfl, rfl, .inr ⟨hgo, h⟩⟩, Nat.le_add_left _ _,
    Nat.succ_le_succ h.length_le⟩

/-- A varint of 1 to 5 bytes stands at an index, or its bytes run out at one of the first five. -/
theorem exists_varintAt_or_varintRunsOff (s : State) (p : Int) :
    (∃ v n, VarintAt s p v n ∧ 1 ≤ n ∧ n ≤ 5) ∨ ∃ idx, VarintRunsOff s p idx ∧ p ≤ idx ∧ idx ≤ p + 4 := by
  cases hlead : bufByte s p with
  | none => exact .inr ⟨p, .inl ⟨rfl, hlead⟩, by omega, by omega⟩
  | some lead =>
    by_cases hgo : LeadEnds s.params lead
    · exact .inl ⟨_, 1, ⟨lead, [], bytesAt_cons hlead (bytesAt_nil _ _), rfl, rfl, .inl ⟨hgo, rfl⟩⟩, by decide⟩
    obtain ⟨bs, hbytes, hall, hlen, hstop⟩ := exists_continuation_bytes s (p + 1) (maxLength - 1)
    have hidx : p + 1 + (bs.length : Int) = p + bs.length + 1 := by omega
    rw [hidx] at hstop
    obtain hcap | hcut := hlen.eq_or_lt
    · have h : VarintEnds s.params bs (bufByte s (p + bs.length + 1)) := .inr (.inr ⟨hall, hcap⟩)
      exact .inl (h.exists_varintAt hlead hgo hbytes)
    have hlen' : bs.length ≤ maxLength - 2 := Nat.le_of_lt_succ hcut
    cases hnext : bufByte s (p + bs.length + 1) with
    | none =>
      have hsmall : bs.length ≤ 3 := hlen'
      exact .inr ⟨_, .inr ⟨lead, bs, bytesAt_cons hlead hbytes, hgo, hall, hlen', rfl, hnext⟩, by omega, by omega⟩
    | some b =>
      obtain hexcl | hfinal := (not_isContinuation_iff _ b).1 (hstop hcut b hnext)
      · have h : VarintEnds s.params bs (bufByte s (p + bs.length + 1)) := .inl ⟨hall, hlen', b, hnext, hexcl⟩
        exact .inl (h.exists_varintAt hlead hgo hbytes)
      · have h (next : Option Byte) : VarintEnds s.params (bs ++ [b]) next :=
          .inr (.inl ⟨bs, b, rfl, hall, hlen', hfinal⟩)
        exact .inl ((h _).exists_varintAt hlead hgo (bytesAt_concat_iff.2 ⟨hbytes, hidx ▸ hnext⟩))

/-- Where the bytes of a varint run out, every byte behind its lead byte is one of at most three continuation bytes. -/
theorem VarintRunsOff.isContinuation {s : State} {p idx : Int} {lead : Byte} (h : VarintRunsOff s p idx)
    (hlead : bufByte s p = some lead) :
    ¬ LeadEnds s.params lead ∧
      ∀ (k : Nat) (b : Byte), bufByte s (p + 1 + k) = some b → k < maxLength - 2 ∧ IsContinuation s.params b := by
  obtain ⟨-, hnone⟩ | ⟨lead', bs, hbytes, hends, hall, hlen, rfl, hnone⟩ := h
  · simp [hnone] at hlead
  obtain ⟨hlead', hbytes⟩ := bytesAt_cons_iff.1 hbytes
  obtain rfl : lead' = lead := Option.some.inj (hlead'.symm.trans hlead)
  refine ⟨hends, fun k b hb => ?_⟩
  have hk : k < bs.length := by
    have hp := bufByte_some hlead
    have hin := bufByte_some hb
    have hout := bufByte_eq_none.1 hnone
    omega
  have hbk : bs[k] = b := Option.some.inj ((hbytes k _ (List.getElem?_eq_getElem hk)).symm.trans hb)
  exact ⟨by simp only [maxLength] at *; omega, hbk ▸ hall _ (List.getElem_mem hk)⟩

/-- Where a varint ends, some byte behind its lead byte is no continuation byte or is the last under the cap. -/
theorem VarintEnds.exists_last {s : State} {p : Int} {bs : List Byte} (hbytes : BytesAt s (p + 1) bs)
    (h : VarintEnds s.params bs (bufByte s (p + bs.length + 1))) :
    ∃ (k : Nat) (b : Byte), bufByte s (p + 1 + k) = some b ∧ ¬ (k < maxLength - 2 ∧ IsContinuation s.params b) := by
  obtain ⟨-, -, e, hnext, hexcl⟩ | ⟨init, last, rfl, -, -, hfinal⟩ | ⟨-, hcap⟩ := h
  · exact ⟨bs.length, e, by rwa [add_right_comm], fun hlast => (not_isContinuation_iff _ e).2 (.inl hexcl) hlast.2⟩
  · exact ⟨init.length, last, (bytesAt_concat_iff.1 hbytes).2,
      fun hlast => (not_isContinuation_iff _ last).2 (.inr hfinal) hlast.2⟩
  · have hlen : maxLength - 2 < bs.length := hcap ▸ by decide
    exact ⟨maxLength - 2, bs[maxLength - 2], hbytes _ _ (List.getElem?_eq_getElem hlen), fun hlast => hlast.1.false⟩

/-- At no index does a varint stand and run out as well. -/
theorem VarintAt.not_varintRunsOff {s : State} {p idx : Int} {v : U32} {n : Nat} (h : VarintAt s p v n) :
    ¬ VarintRunsOff s p idx := by
  intro hoff
  obtain ⟨lead, bs, hbytes, -, -, hends⟩ := h
  obtain ⟨hlead, hmore⟩ := bytesAt_cons_iff.1 hbytes
  obtain ⟨hno, hcont⟩ := hoff.isContinuation hlead
  obtain ⟨hyes, -⟩ | ⟨-, hends⟩ := hends
  · exact hno hyes
  · obtain ⟨k, b, hb, hlast⟩ := hends.exists_last hmore
    exact hlast (hcont k b hb)

/-- Settles O30: the continuation bytes behind a lead byte are followed to what ends them, and what ends a varint is in
the buffer. -/
theorem everyIndexHoldsAVarintOrRunsOff : Obligations.EveryIndexHoldsAVarintOrRunsOff := by
  refine fun s p _ => ⟨exists_varintAt_or_varintRunsOff s p, ?_⟩
  rintro ⟨⟨v, n, hat⟩, idx, hoff⟩
  exact hat.not_varintRunsOff hoff

end Sys2Proof.Machine

/-! PROOFS. The statements on the byte cursor (spec/40_byte_cursor.md): what `open`, `getpos`, `setpos`, `skip`, `peek`
and `read.byte` do, and that only `open` changes the mode. -/

namespace Sys2Proof.Machine

/-- A command its mode admits ends as its pseudocode does (R80). -/
theorem exec_of_admitted {i : Instr} {s : State} (h : admits s.mode i = true) : exec i s = finish (bodyOf i s) := by
  rw [exec_eq_runCommand, runCommand_admitted _ h]

/-- A command outside the byte codec's seven ends as its pseudocode does, in every mode (R66). -/
theorem exec_of_not_byteOnly {i : Instr} (h : byteOnly i = false) (s : State) : exec i s = finish (bodyOf i s) :=
  exec_of_admitted (admits_of_not_byteOnly s.mode h)

/-! ## Moving the position (R81 to R84) -/

/-- Settles O13: every form is `openAs` of its mode, and the decoder has no form for `MF = 3`. -/
theorem openStartsACursor : Obligations.OpenStartsACursor := fun s _ =>
  ⟨rfl, rfl, rfl, rfl, exec_of_not_byteOnly rfl s, exec_of_not_byteOnly rfl s, exec_of_not_byteOnly rfl s⟩

/-- Settles O14: the pseudocode of `getpos` writes nothing. -/
theorem getposAnswersThePosition : Obligations.GetposAnswersThePosition :=
  ⟨rfl, fun s => exec_of_not_byteOnly rfl s⟩

theorem seek_eq (p : Int) (s : State) : seek p s =
    { s with
      pos := p, curv := false
      bitoff := if s.params.setposClearsBitoff = true then 0 else s.bitoff } := by
  unfold seek
  split <;> rfl

theorem exec_setpos (s : State) (a : Arg) :
    exec (.setpos a) s = .next ((seek (argValue s.params a) s).answered none) :=
  exec_of_not_byteOnly rfl s

/-- Settles O15: the position is sought with no look at the buffer. -/
theorem setposMovesUnchecked : Obligations.SetposMovesUnchecked := by
  refine fun s a => ⟨rfl, ?_⟩
  rw [exec_setpos, seek_eq]

theorem exec_skip (s : State) (a : Arg) : exec (.skip a) s = finish (skipBy (argValue s.params a) s) :=
  exec_of_not_byteOnly rfl s

theorem exec_skip_of_fits {s : State} {a : Arg}
    (h : posMin s.params ≤ s.pos + argValue s.params a ∧ s.pos + argValue s.params a ≤ posMax s.params) :
    exec (.skip a) s = .next ((seek (s.pos + argValue s.params a) s).answered none) := by
  rw [exec_skip, skipBy, if_neg (by omega), finish_value]

theorem exec_skip_of_overflow {s : State} {a : Arg}
    (h : s.pos + argValue s.params a < posMin s.params ∨ posMax s.params < s.pos + argValue s.params a) :
    exec (.skip a) s = .next (s.faulted 3 (BitVec.ofInt 64 (argValue s.params a))) := by
  rw [exec_skip, skipBy, if_pos h, finish_raised, raiseCode, raiseInfo]

/-- Settles O16: the two clauses are the two branches of the overflow check, and where the sum fits it is sought. -/
theorem skipMovesOrOverflows : Obligations.SkipMovesOrOverflows := by
  refine fun s a => ⟨rfl, fun hfits => ?_, exec_skip_of_overflow⟩
  rw [exec_skip_of_fits hfits, seek_eq]

/-- Settles O17: an argument's value lies in the range of `POS`, so the sum fits, and both commands seek it. -/
theorem skipIsSetposOfTheSum : Obligations.SkipIsSetposOfTheSum := by
  intro s a b hc hsum
  have hfits := argValue_range hc b
  rw [hsum] at hfits
  rw [exec_skip_of_fits hfits, exec_setpos, hsum]

/-! ## Reading one byte (R85, R86) -/

theorem memRead_of_inside {s : State} {idx : Int} (h : 0 ≤ idx ∧ idx < (s.params.bufLen : Int)) :
    memRead idx s = .value (Memory.read s.buf idx.toNat) s :=
  memRead_of_some (if_pos h)

theorem memRead_of_outside {s : State} {idx : Int} (h : ¬ (0 ≤ idx ∧ idx < (s.params.bufLen : Int))) :
    memRead idx s = .raised (.outOfRange idx) s :=
  memRead_of_none (bufByte_eq_none.2 h)

/-- Settles O18: `peek` ends as its one read of the buffer does, and no mode rejects it. -/
theorem peekReadsWithoutMoving : Obligations.PeekReadsWithoutMoving := by
  intro s a
  have hexec : exec (.peek a) s = finish (bodyOf (.peek a) s) := exec_of_not_byteOnly rfl s
  refine ⟨rfl, fun hin => ?_, fun hout => ?_⟩
  · simp only [hexec, bodyOf, memRead_of_inside hin, andThen_value, finish_value]
  · simp only [hexec, bodyOf, memRead_of_outside hout, andThen_raised, finish_raised, raiseCode, raiseInfo]

/-- Settles O19: in `BYTE` mode `read.byte` ends as its read at `POS` does, which moves `POS` only where it gives a
byte. -/
theorem readByteAdvances : Obligations.ReadByteAdvances := by
  refine ⟨rfl, fun s hm => exec_of_rejected ⟨hm, by decide⟩, fun s hm => ?_⟩
  have hexec : exec .readByte s = finish (bodyOf .readByte s) := exec_of_admitted (hm ▸ admits_byte _)
  refine ⟨fun hin => ?_, fun hout => ?_⟩
  · simp only [hexec, bodyOf, memRead_of_inside hin, andThen_value, finish_value, State.setPos]
  · simp only [hexec, bodyOf, memRead_of_outside hout, andThen_raised, finish_raised, raiseCode, raiseInfo]

/-! ## What a command that is no `open` leaves (R23, R81) -/

theorem seek_onlyCursor (p : Int) (s : State) : OnlyCursor s (seek p s) := by
  rw [seek_eq]
  rfl

theorem skipBy_value {n : Int} {s t : State} {v : Option Value} (h : skipBy n s = .value v t) : OnlyCursor s t := by
  unfold skipBy at h
  split at h
  · cases h
  · cases h
    exact seek_onlyCursor _ s

theorem readOne_value {f : U32 → Value} {s t : State} {v : Option Value} (h : readOne f s = .value v t) :
    OnlyCursor s t := by
  obtain ⟨u, t', hu, ht⟩ := andThen_eq_value h
  cases ht
  exact readVarint_value hu

theorem readTwo_value {f : U32 → U32 → Value} {s t : State} {v : Option Value} (h : readTwo f s = .value v t) :
    OnlyCursor s t := by
  obtain ⟨u, t', hu, ht'⟩ := andThen_eq_value h
  obtain ⟨w, t'', hw, ht''⟩ := andThen_eq_value ht'
  cases ht''
  exact (readVarint_value hu).trans (readVarint_value hw)

/-- Where a command that is no `open` gives a value, its pseudocode wrote the cursor registers only. -/
theorem bodyOf_value_onlyCursor {i : Instr} {s t : State} {v : Option Value}
    (hopen : ∀ a, i ≠ .openByte a ∧ i ≠ .openBita a ∧ i ≠ .openBitb a) (h : bodyOf i s = .value v t) :
    OnlyCursor s t := by
  cases i with
  | openByte a => exact absurd rfl (hopen a).1
  | openBita a => exact absurd rfl (hopen a).2.1
  | openBitb a => exact absurd rfl (hopen a).2.2
  | getpos =>
    cases h
    exact .refl s
  | setpos a =>
    cases h
    exact seek_onlyCursor _ s
  | skip a => exact skipBy_value h
  | readUint | readSint | readBool | readI8 | readI16 | readChar16 | readF32 => exact readOne_value h
  | readF64 | readI64 => exact readTwo_value h
  | peek a =>
    obtain ⟨b, u, hb, hu⟩ := andThen_eq_value h
    cases hu
    exact (Decodes.memRead _ s).value b _ hb
  | readByte =>
    obtain ⟨b, u, hb, hu⟩ := andThen_eq_value h
    cases hu
    exact ((Decodes.memRead _ s).value b u hb).trans rfl

/-- Settles O52, by how the command ends: a rejection and a `raise` leave `MODE` whatever the command is. -/
theorem onlyOpenChangesTheMode : Obligations.OnlyOpenChangesTheMode := by
  intro i s t h
  obtain ht | ⟨-, ⟨v, u, hu, ht⟩ | ⟨e, u, hu, ht⟩⟩ := exec_ends i s
  · cases h.symm.trans ht
    exact ⟨rfl, fun _ => rfl⟩
  · cases h.symm.trans ht
    obtain ⟨-, -, -, -, -, hinbox, -⟩ := ((bodyOf_runs i s).value v u hu).1.fields
    exact ⟨hinbox, fun hopen => (bodyOf_value_onlyCursor hopen hu).mode⟩
  · cases h.symm.trans ht
    obtain ⟨hregs, hmode, -⟩ := (bodyOf_runs i s).raised e u hu
    obtain ⟨-, -, -, -, -, hinbox, -⟩ := hregs.fields
    exact ⟨hinbox, fun _ => hmode⟩

end Sys2Proof.Machine

/-! PROOFS. The statements on the varint codec of `BYTE` mode (spec/41_varint_codec.md): what the nine reads of varints
do, the lead byte below `X`, and the sign decode. -/

namespace Sys2Proof.Machine

/-! ## The value of a varint's bytes (R44, R100) -/

theorem digitSum_concat (p : Params) (i : Nat) (bs : List Byte) (b : Byte) :
    digitSum p i (bs ++ [b]) = digitSum p i bs + ((b.toNat : Int) - p.x) * 2 ^ (p.lgH * (i + bs.length)) := by
  induction bs generalizing i with
  | nil => simp [digitSum]
  | cons c cs ih =>
    have hplace : i + 1 + cs.length = i + (c :: cs).length := by rw [List.length_cons, Nat.add_assoc, Nat.add_comm 1]
    rw [List.cons_append, digitSum, digitSum, ih, hplace, add_assoc]

/-- Adding a byte that is not excluded to the running sum (R100), in exact integers modulo `2 ^ 32`. -/
theorem add_shifted_digit {p : Params} {b : Byte} (h : ¬ IsExcluded p b) (sum : Int) (k : Nat) :
    BitVec.ofNat 32 ((BitVec.ofInt 32 sum).toNat + (b.toNat - p.x) <<< k) =
      BitVec.ofInt 32 (sum + ((b.toNat : Int) - p.x) * 2 ^ k) := by
  have hdigit : ((b.toNat : Int) - p.x) * 2 ^ k = (((b.toNat - p.x) <<< k : Nat) : Int) := by
    rw [Nat.shiftLeft_eq, Nat.cast_mul, Nat.cast_sub (Nat.le_of_not_lt h)]
    push_cast
    rfl
  rw [hdigit, BitVec.ofNat_add, BitVec.ofNat_toNat, BitVec.setWidth_eq, BitVec.ofInt_add, BitVec.ofInt_natCast]

/-- A lead byte ends the decode exactly if it is a varint by itself (R70, R102). -/
theorem leadFinal_iff {p : Params} (hc : configOk p = true) (b : Byte) :
    leadFinal p ((b.toNat : Int) - p.x) = true ↔ LeadEnds p b := by
  obtain ⟨⟨hx, -, hl, -⟩, -⟩ := (configOk_iff p).1 hc
  have hb := b.isLt
  unfold leadFinal LeadEnds IsFinal IsExcluded
  cases p.leadCmp with
  | signed =>
    simp only [decide_eq_true_eq, true_and]
    omega
  | unsigned =>
    simp only [decide_eq_true_eq, reduceCtorEq, false_and, or_false, BitVec.toNat_ofInt]
    omega

/-! ## The loop over the bytes behind the lead byte (R100) -/

section Loop
variable {s : State} {p : Int} {left i : Nat} {b : Byte}

theorem u5Loop_of_outside (hi : i + left = maxLength - 1) (h : bufByte s (p + i) = none) (sum : U32) :
    u5Loop left p sum s = .raised (.outOfRange (p + i)) s := by
  obtain rfl : i = maxLength - 1 - left := Nat.eq_sub_of_add_eq hi
  unfold u5Loop
  simp only [memRead_of_none h, andThen_raised]

theorem u5Loop_of_excluded (hi : i + left = maxLength - 1) (h : bufByte s (p + i) = some b)
    (hb : IsExcluded s.params b) (sum : U32) : u5Loop left p sum s = .value sum (s.setPos (p + i)) := by
  obtain rfl : i = maxLength - 1 - left := Nat.eq_sub_of_add_eq hi
  have hx : b.toNat < s.params.x := hb
  unfold u5Loop
  simp only [memRead_of_some h, andThen_value, if_pos hx]

/-- The last byte of a varint is a final one, or a continuation byte at the cap. -/
theorem u5Loop_of_last (hi : i + left = maxLength - 1) (h : bufByte s (p + i) = some b)
    (hb : IsFinal s.params b ∨ left = 0 ∧ IsContinuation s.params b) (sum : Int) :
    u5Loop left p (BitVec.ofInt 32 sum) s =
      .value (BitVec.ofInt 32 (sum + ((b.toNat : Int) - s.params.x) * 2 ^ (s.params.lgH * i)))
        (s.setPos (p + i + 1)) := by
  obtain rfl : i = maxLength - 1 - left := Nat.eq_sub_of_add_eq hi
  have hx : ¬ IsExcluded s.params b := by
    unfold IsFinal IsContinuation at hb
    unfold IsExcluded
    omega
  rw [← add_shifted_digit hx]
  unfold IsExcluded at hx
  unfold u5Loop
  simp only [memRead_of_some h, andThen_value, if_neg hx]
  cases left with
  | zero => rfl
  | succ left =>
    have hfin : b.toNat < s.params.x + s.params.l := (hb.resolve_right (fun h => nomatch h.1)).2
    exact if_pos hfin

theorem u5Loop_of_continuation (hi : i + (left + 1) = maxLength - 1) (h : bufByte s (p + i) = some b)
    (hb : IsContinuation s.params b) (sum : Int) :
    u5Loop (left + 1) p (BitVec.ofInt 32 sum) s =
      u5Loop left p (BitVec.ofInt 32 (sum + ((b.toNat : Int) - s.params.x) * 2 ^ (s.params.lgH * i))) s := by
  obtain rfl : i = maxLength - 1 - (left + 1) := Nat.eq_sub_of_add_eq hi
  have hfin : ¬ b.toNat < s.params.x + s.params.l := Nat.not_lt.2 hb
  have hx : ¬ b.toNat < s.params.x := fun h => hfin (Nat.lt_add_right _ h)
  rw [← add_shifted_digit hx, u5Loop]
  simp only [memRead_of_some h, andThen_value, if_neg hx, if_neg hfin]

/-- A run of continuation bytes is added up, and the loop goes on behind it. -/
theorem u5Loop_of_continuations {bs : List Byte} (hi : i + (left + bs.length) = maxLength - 1)
    (h : BytesAt s (p + i) bs) (hbs : ∀ b ∈ bs, IsContinuation s.params b) (sum : Int) :
    u5Loop (left + bs.length) p (BitVec.ofInt 32 sum) s =
      u5Loop left p (BitVec.ofInt 32 (sum + digitSum s.params i bs)) s := by
  induction bs generalizing i sum with
  | nil => simp [digitSum]
  | cons c cs ih =>
    obtain ⟨hc, hcs⟩ := bytesAt_cons_iff.1 h
    obtain ⟨hcont, hconts⟩ := List.forall_mem_cons.1 hbs
    have hstep := u5Loop_of_continuation (left := left + cs.length) hi hc hcont sum
    have hrest : i + 1 + (left + cs.length) = maxLength - 1 := by rw [← hi, List.length_cons]; omega
    rw [List.length_cons, ← Nat.add_assoc, hstep, ih hrest (by rwa [Nat.cast_succ, ← add_assoc]) hconts, digitSum,
      add_assoc]

end Loop

/-! ## One varint (R70, R100, R101) -/

/-- A varint of more than a lead byte ends before an excluded byte or with a byte of its own: a final one, or a
continuation byte at the cap. -/
theorem VarintEnds.excluded_or_last {p : Params} {bs : List Byte} {next : Option Byte} (h : VarintEnds p bs next) :
    ((∀ b ∈ bs, IsContinuation p b) ∧ bs.length ≤ maxLength - 2 ∧ ∃ e, next = some e ∧ IsExcluded p e) ∨
    ∃ init last, bs = init ++ [last] ∧ (∀ b ∈ init, IsContinuation p b) ∧ init.length ≤ maxLength - 2 ∧
      (IsFinal p last ∨ init.length = maxLength - 2 ∧ IsContinuation p last) := by
  obtain hexcl | ⟨init, last, hbs, hall, hlen, hfinal⟩ | ⟨hall, hcap⟩ := h
  · exact .inl hexcl
  · exact .inr ⟨init, last, hbs, hall, hlen, .inl hfinal⟩
  · obtain ⟨init, last, rfl⟩ := (List.eq_nil_or_concat' bs).resolve_left (by rintro rfl; cases hcap)
    have hlen : init.length = maxLength - 2 := by simpa [maxLength] using hcap
    exact .inr ⟨init, last, rfl, fun b hb => hall b (by simp [hb]), hlen.le, .inr ⟨hlen, hall last (by simp)⟩⟩

theorem u5_of_outside {s : State} (h : bufByte s s.pos = none) : u5 s = .raised (.outOfRange s.pos) s := by
  simp only [u5, memRead_of_none h, andThen_raised]

/-- Behind a lead byte and `n` more, the loop is at place `n + 1` with the rest of the cap left. -/
theorem succ_add_left_eq_cap {n : Nat} (h : n ≤ maxLength - 2) : n + 1 + (maxLength - 2 - n) = maxLength - 1 := by
  unfold maxLength at *
  omega

section Lead
variable {s : State} {lead : Byte} (hc : configOk s.params = true) (h : bufByte s s.pos = some lead)
include hc h

theorem u5_of_leadEnds (hlead : LeadEnds s.params lead) :
    u5 s = .value (BitVec.ofInt 32 ((lead.toNat : Int) - s.params.x)) (s.setPos (s.pos + 1)) := by
  simp only [u5, memRead_of_some h, andThen_value, if_pos ((leadFinal_iff hc lead).2 hlead)]

/-- Behind a lead byte that does not end the varint, continuation bytes are added up before the loop goes on. -/
theorem u5_of_continuations (hlead : ¬ LeadEnds s.params lead) {bs : List Byte} (hlen : bs.length ≤ maxLength - 2)
    (hbytes : BytesAt s (s.pos + 1) bs) (hbs : ∀ b ∈ bs, IsContinuation s.params b) :
    u5 s = u5Loop (maxLength - 2 - bs.length) s.pos (BitVec.ofInt 32 (digitSum s.params 0 (lead :: bs))) s := by
  have hleft : maxLength - 2 - bs.length + bs.length = maxLength - 2 := Nat.sub_add_cancel hlen
  have hgo : ¬ leadFinal s.params ((lead.toNat : Int) - s.params.x) = true := (leadFinal_iff hc lead).not.2 hlead
  simp only [u5, memRead_of_some h, andThen_value, if_neg hgo]
  rw [← hleft, u5Loop_of_continuations (i := 1) (by rw [hleft]; rfl) hbytes hbs]
  simp [digitSum]

end Lead

/-- `U5` decodes the varint at `POS` and moves `POS` behind it. -/
theorem u5_of_varintAt {s : State} {v : U32} {n : Nat} (hc : configOk s.params = true) (h : VarintAt s s.pos v n) :
    u5 s = .value v (s.setPos (s.pos + n)) := by
  obtain ⟨lead, bs, hbytes, rfl, rfl, hends⟩ := h
  obtain ⟨hlead, hmore⟩ := bytesAt_cons_iff.1 hbytes
  obtain ⟨hend, rfl⟩ | ⟨hgo, hends⟩ := hends
  · rw [u5_of_leadEnds hc hlead hend]
    simp [digitSum]
  obtain ⟨hall, hlen, e, hnext, hexcl⟩ | ⟨init, last, rfl, hall, hlen, hlast⟩ := hends.excluded_or_last
  · rw [u5_of_continuations hc hlead hgo hlen hmore hall,
      u5Loop_of_excluded (succ_add_left_eq_cap hlen) (by rwa [Nat.cast_succ, ← add_assoc]) hexcl]
  · obtain ⟨hinit, hbyte⟩ := bytesAt_concat_iff.1 hmore
    have hcap : IsFinal s.params last ∨ maxLength - 2 - init.length = 0 ∧ IsContinuation s.params last :=
      hlast.imp_right fun ⟨hfull, hcont⟩ => ⟨by rw [hfull, Nat.sub_self], hcont⟩
    rw [add_right_comm, add_assoc, ← Nat.cast_succ] at hbyte
    rw [u5_of_continuations hc hlead hgo hlen hinit hall, u5Loop_of_last (succ_add_left_eq_cap hlen) hbyte hcap,
      ← List.cons_append, digitSum_concat]
    simp [add_assoc]

/-- `U5` raises `OutOfRange` of the first index outside and leaves `POS` alone. -/
theorem u5_of_varintRunsOff {s : State} {idx : Int} (hc : configOk s.params = true) (h : VarintRunsOff s s.pos idx) :
    u5 s = .raised (.outOfRange idx) s := by
  obtain ⟨rfl, hnone⟩ | ⟨lead, bs, hbytes, hgo, hall, hlen, rfl, hnone⟩ := h
  · exact u5_of_outside hnone
  obtain ⟨hlead, hmore⟩ := bytesAt_cons_iff.1 hbytes
  rw [u5_of_continuations hc hlead hgo hlen hmore hall,
    u5Loop_of_outside (succ_add_left_eq_cap hlen) (by rwa [Nat.cast_succ, ← add_assoc]), Nat.cast_succ, add_assoc]

/-! ## The reads of `BYTE` mode (R80, R106 to R115) -/

theorem readVarint_byte {s : State} (h : s.mode = .byte) : readVarint s = u5 s := by
  simp only [readVarint, h]

/-- `BYTE` mode admits every command (R66). -/
theorem exec_of_byte {s : State} (h : s.mode = .byte) (i : Instr) : exec i s = finish (bodyOf i s) :=
  exec_of_admitted (h ▸ admits_byte i)

theorem finish_outOfRange (idx : Int) (s : State) :
    finish (.raised (.outOfRange idx) s) = .next (s.faulted 1 (BitVec.ofInt 64 idx)) :=
  finish_raised _ _

theorem byteModeOnly_of_mem {i : Instr} (h : i ∈ byteCodecOnly) : ByteModeOnly i (commandWord i) :=
  fun _ hm => exec_of_rejected ⟨hm, h⟩

/-- A command whose pseudocode reads one varint does in `BYTE` mode what `U5` does. -/
theorem byteModeRead_of_readOne {i : Instr} {f : U32 → Value}
    (h : ∀ s : State, s.mode = .byte → exec i s = finish (readOne f s)) : ByteModeRead i (commandWord i) f := by
  refine ⟨rfl, fun s hc hm => ⟨fun v n hat => ?_, fun idx hoff => ?_⟩⟩
  · rw [h s hm, readOne, readVarint_byte hm, u5_of_varintAt hc hat, andThen_value, finish_value, State.setPos]
  · rw [h s hm, readOne, readVarint_byte hm, u5_of_varintRunsOff hc hoff, andThen_raised, finish_outOfRange]

/-- A command whose pseudocode reads two varints does in `BYTE` mode what `U5` does, and does again from behind the
first varint (R115). -/
theorem byteModeReadTwo_of_readTwo {i : Instr} {f : U32 → U32 → Value}
    (h : ∀ s : State, s.mode = .byte → exec i s = finish (readTwo f s)) : ByteModeReadTwo i (commandWord i) f := by
  refine ⟨rfl, fun s hc hm => ⟨fun idx hoff => ?_, fun v n hat => ?_⟩⟩
  · rw [h s hm, readTwo, readVarint_byte hm, u5_of_varintRunsOff hc hoff, andThen_raised, finish_outOfRange]
  have hexec : exec i s = finish ((u5 (s.setPos (s.pos + n))).andThen fun w t => .value (some (f v w)) t) := by
    rw [h s hm, readTwo, readVarint_byte hm, u5_of_varintAt hc hat, andThen_value,
      readVarint_byte (s := s.setPos (s.pos + n)) hm]
  refine ⟨fun w m hat' => ?_, fun idx hoff => ?_⟩
  · rw [hexec, u5_of_varintAt (s := s.setPos (s.pos + n)) hc hat', andThen_value, finish_value]
    rfl
  · rw [hexec, u5_of_varintRunsOff (s := s.setPos (s.pos + n)) hc hoff, andThen_raised, finish_outOfRange]
    rfl

/-- Settles O21: every mode admits `read.uint`, which widens its varint by zeros. -/
theorem readUintInByteMode : Obligations.ReadUintInByteMode :=
  byteModeRead_of_readOne fun s _ => SharedRead.uint.exec_eq s

/-- Settles O22: `read.sint` reads one varint in `BYTE` mode, and is of the byte codec. -/
theorem readSintInByteMode : Obligations.ReadSintInByteMode :=
  ⟨byteModeRead_of_readOne fun _ hm => exec_of_byte hm .readSint, byteModeOnly_of_mem (by decide)⟩

/-- Settles O23: every mode admits `read.bool`, which tests its varint for 0. -/
theorem readBoolInByteMode : Obligations.ReadBoolInByteMode :=
  byteModeRead_of_readOne fun s _ => SharedRead.bool.exec_eq s

/-- Settles O24: every mode admits `read.i8`, which keeps the low 8 bits of its varint. -/
theorem readI8InByteMode : Obligations.ReadI8InByteMode :=
  byteModeRead_of_readOne fun s _ => SharedRead.i8.exec_eq s

/-- Settles O25: `read.i16` reads one varint in `BYTE` mode, and is of the byte codec. -/
theorem readI16InByteMode : Obligations.ReadI16InByteMode :=
  ⟨byteModeRead_of_readOne fun _ hm => exec_of_byte hm .readI16, byteModeOnly_of_mem (by decide)⟩

/-- Settles O26: `read.char16` reads one varint in `BYTE` mode, and is of the byte codec. -/
theorem readChar16InByteMode : Obligations.ReadChar16InByteMode :=
  ⟨byteModeRead_of_readOne fun _ hm => exec_of_byte hm .readChar16, byteModeOnly_of_mem (by decide)⟩

/-- Settles O27: `read.f32` reads one varint in `BYTE` mode, and is of the byte codec. -/
theorem readF32InByteMode : Obligations.ReadF32InByteMode :=
  ⟨byteModeRead_of_readOne fun _ hm => exec_of_byte hm .readF32, byteModeOnly_of_mem (by decide)⟩

/-- Settles O28: `read.f64` reads two varints in `BYTE` mode, the high half first, and is of the byte codec. -/
theorem readF64InByteMode : Obligations.ReadF64InByteMode :=
  ⟨byteModeReadTwo_of_readTwo fun _ hm => exec_of_byte hm .readF64, byteModeOnly_of_mem (by decide)⟩

/-- Settles O29: `read.i64` reads two varints in `BYTE` mode, the low half first, and is of the byte codec. -/
theorem readI64InByteMode : Obligations.ReadI64InByteMode :=
  ⟨byteModeReadTwo_of_readTwo fun _ hm => exec_of_byte hm .readI64, byteModeOnly_of_mem (by decide)⟩

/-! ## A lead byte below `X` (R102) -/

/-- A lead byte below `X` gives a negative sum, which is `2 ^ 32 - (X - b0)` in 32 bits. -/
theorem setWidth_ofInt_of_isExcluded {p : Params} (hc : configOk p = true) {b : Byte} (hb : IsExcluded p b) :
    (BitVec.ofInt 32 (digitSum p 0 [b])).setWidth 64 = BitVec.ofNat 64 (2 ^ 32 - (p.x - b.toNat)) := by
  obtain ⟨⟨hx, -⟩, -⟩ := (configOk_iff p).1 hc
  unfold IsExcluded at hb
  have hsum : digitSum p 0 [b] = (b.toNat : Int) - p.x := by simp [digitSum]
  apply BitVec.eq_of_toNat_eq
  rw [hsum, BitVec.toNat_setWidth, BitVec.toNat_ofInt, BitVec.toNat_ofNat]
  omega

theorem not_leadEnds_of_isExcluded {p : Params} (hcmp : p.leadCmp = .unsigned) {b : Byte} (hb : IsExcluded p b) :
    ¬ LeadEnds p b := by
  unfold IsExcluded at hb
  unfold LeadEnds IsFinal
  simp only [hcmp, reduceCtorEq, false_and, or_false]
  omega

/-- Settles O31: such a byte is a varint by itself under `SIGNED`; under `UNSIGNED` it needs a byte behind it, and an
excluded one ends the varint without being part of it. -/
theorem leadByteBelowX : Obligations.LeadByteBelowX := by
  intro s b hc hm hb hx
  obtain ⟨-, hread⟩ := readUintInByteMode
  obtain ⟨hat, hoff⟩ := hread s hc hm
  have hbytes : BytesAt s s.pos [b] := bytesAt_cons hb (bytesAt_nil _ _)
  rw [← setWidth_ofInt_of_isExcluded hc hx]
  refine ⟨fun hcmp => ?_, fun hcmp hnone => ?_, fun hcmp e he hexcl => ?_⟩
  · exact hat _ 1 ⟨b, [], hbytes, rfl, rfl, .inl ⟨.inr ⟨hcmp, hx⟩, rfl⟩⟩
  · exact hoff _ (.inr ⟨b, [], hbytes, not_leadEnds_of_isExcluded hcmp hx, nofun, by decide, by simp, hnone⟩)
  · exact hat _ 1 ⟨b, [], hbytes, rfl, rfl,
      .inr ⟨not_leadEnds_of_isExcluded hcmp hx, .inl ⟨nofun, by decide, e, by simpa using he, hexcl⟩⟩⟩

/-! ## The sign decode (R104) -/

theorem two_mul_decodeSign_of_even {u : U32} (h : u.toNat % 2 = 0) : 2 * decodeSign u = u.toNat := by
  rw [decodeSign, if_pos h]
  omega

theorem two_mul_decodeSign_of_odd {u : U32} (h : u.toNat % 2 = 1) : 2 * decodeSign u = -((u.toNat : Int) + 1) := by
  rw [decodeSign, if_neg (by omega)]
  omega

theorem decodeSign_range (u : U32) : -(2 : Int) ^ 31 ≤ decodeSign u ∧ decodeSign u < 2 ^ 31 := by
  have hu := u.isLt
  obtain h | h := Nat.mod_two_eq_zero_or_one u.toNat
  · have := two_mul_decodeSign_of_even h
    omega
  · have := two_mul_decodeSign_of_odd h
    omega

theorem getLsbD_zero_eq_decide (u : U32) : u.getLsbD 0 = decide (u.toNat % 2 = 1) := by
  rw [BitVec.getLsbD, Nat.testBit_zero]

/-- The bit formula of R104: the low bit picks `u >> 1` or its complement. -/
theorem toInt_shift_xor_eq_decodeSign (u : U32) : ((u >>> 1) ^^^ (0 - (u &&& 1))).toInt = decodeSign u := by
  have hu := u.isLt
  have hbit : (u &&& 1).toNat = u.toNat % 2 := by rw [BitVec.toNat_and]; exact Nat.and_one_is_mod _
  have hshift : (u >>> 1).toNat = u.toNat / 2 := by rw [BitVec.toNat_ushiftRight, Nat.shiftRight_one]
  obtain h | h := Nat.mod_two_eq_zero_or_one u.toNat
  · have hmask : 0 - (u &&& 1) = 0#32 := by
      rw [show u &&& 1 = 0 from BitVec.eq_of_toNat_eq (hbit.trans h)]
      rfl
    have := two_mul_decodeSign_of_even h
    rw [hmask, BitVec.xor_zero, BitVec.toInt_eq_toNat_cond, hshift]
    omega
  · have hmask : 0 - (u &&& 1) = BitVec.allOnes 32 := by
      rw [show u &&& 1 = 1 from BitVec.eq_of_toNat_eq (hbit.trans h)]
      rfl
    have := two_mul_decodeSign_of_odd h
    rw [hmask, BitVec.xor_allOnes, BitVec.toInt_eq_toNat_cond, BitVec.toNat_not, hshift]
    omega

theorem decodeSign_injective : Function.Injective decodeSign := by
  intro u w h
  apply BitVec.eq_of_toNat_eq
  have hsign (v : U32) : 2 * decodeSign v = v.toNat ∨ 2 * decodeSign v = -((v.toNat : Int) + 1) :=
    (Nat.mod_two_eq_zero_or_one v.toNat).imp two_mul_decodeSign_of_even two_mul_decodeSign_of_odd
  have hu := hsign u
  have hw := hsign w
  omega

/-- The zig-zag code of an `s32`: `2 * z`, or `-2 * z - 1` for a negative `z` (R104). -/
def zigZag (z : Int) : U32 := BitVec.ofNat 32 (if 0 ≤ z then 2 * z.toNat else 2 * (-z).toNat - 1)

theorem decodeSign_zigZag {z : Int} (hmin : -(2 : Int) ^ 31 ≤ z) (hmax : z < 2 ^ 31) : decodeSign (zigZag z) = z := by
  by_cases hz : 0 ≤ z
  · have hnat : (zigZag z).toNat = 2 * z.toNat := by
      rw [zigZag, if_pos hz, BitVec.toNat_ofNat, Nat.mod_eq_of_lt (by omega)]
    have := two_mul_decodeSign_of_even (u := zigZag z) (by omega)
    omega
  · have hnat : (zigZag z).toNat = 2 * (-z).toNat - 1 := by
      rw [zigZag, if_neg hz, BitVec.toNat_ofNat, Nat.mod_eq_of_lt (by omega)]
    have := two_mul_decodeSign_of_odd (u := zigZag z) (by omega)
    omega

/-- Settles O32: the parity of `u` decides the case, and `zigZag` is the inverse. -/
theorem decodeSignIsTheZigZagInverse : Obligations.DecodeSignIsTheZigZagInverse := by
  refine ⟨fun u => ?_, fun z hmin hmax => ⟨zigZag z, decodeSign_zigZag hmin hmax, fun w hw => ?_⟩⟩
  · obtain ⟨hmin, hmax⟩ := decodeSign_range u
    rw [getLsbD_zero_eq_decide, decide_eq_false_iff_not, decide_eq_true_eq]
    exact ⟨fun h => two_mul_decodeSign_of_even (by omega), two_mul_decodeSign_of_odd, hmin, hmax,
      toInt_shift_xor_eq_decodeSign u⟩
  · exact decodeSign_injective (hw.trans (decodeSign_zigZag hmin hmax).symm)

/-! ## The registers of the bit modes (R116) -/

/-- `t` is `s` but for `POS`. -/
def OnlyPos (s t : State) : Prop := ∃ p, t = s.setPos p

theorem OnlyPos.refl (s : State) : OnlyPos s s := ⟨s.pos, rfl⟩

theorem OnlyPos.trans {s t u : State} (h₁ : OnlyPos s t) (h₂ : OnlyPos t u) : OnlyPos s u := by
  obtain ⟨p, rfl⟩ := h₁
  obtain ⟨q, rfl⟩ := h₂
  exact ⟨q, rfl⟩

theorem OnlyPos.mode {s t : State} (h : OnlyPos s t) : t.mode = s.mode := by
  obtain ⟨p, rfl⟩ := h
  rfl

/-- A piece of pseudocode that writes `POS` only, however it ends. -/
abbrev Reply.MovesPos {α : Type} (s : State) (r : Reply α) : Prop := r.Leaves (fun _ t => OnlyPos s t) (OnlyPos s)

section MovesPos
variable {s t : State} (hst : OnlyPos s t) (hm : t.mode = .byte)
include hst hm

theorem readVarint_movesPos : (readVarint t).MovesPos s := by
  rw [readVarint_byte hm]
  exact (u5_leaves t).mono (fun _ _ ⟨p, hp, _⟩ => hst.trans ⟨p, hp⟩) fun _ h => h ▸ hst

theorem readOne_movesPos (f : U32 → Value) : (readOne f t).MovesPos s :=
  (readVarint_movesPos hst hm).bind fun _ _ h => .of_value h

end MovesPos

theorem readTwo_movesPos {s : State} (hm : s.mode = .byte) (f : U32 → U32 → Value) : (readTwo f s).MovesPos s :=
  (readVarint_movesPos (.refl s) hm).bind fun _ _ h =>
    (readVarint_movesPos h (h.mode.trans hm)).bind fun _ _ h' => .of_value h'

theorem bodyOf_movesPos {s : State} (hm : s.mode = .byte) {i : Instr} (hi : i = .readByte ∨ i ∈ varintReads) :
    (bodyOf i s).MovesPos s := by
  simp only [varintReads, List.mem_cons, List.not_mem_nil, or_false] at hi
  obtain rfl | rfl | rfl | rfl | rfl | rfl | rfl | rfl | rfl | rfl := hi
  · exact memRead_bind_leaves (.refl s) fun _ _ => .of_value ⟨_, rfl⟩
  iterate 7 exact readOne_movesPos (.refl s) hm _
  iterate 2 exact readTwo_movesPos hm _

/-- Settles O34: such a command answers or faults in a state that differs in `POS` only. -/
theorem byteReadsLeaveTheBitRegisters : Obligations.ByteReadsLeaveTheBitRegisters := by
  intro s i hm hi
  have hmoves := bodyOf_movesPos hm hi
  obtain ht | ⟨-, ⟨v, u, hu, ht⟩ | ⟨e, u, hu, ht⟩⟩ := exec_ends i s
  · exact ⟨_, ht, rfl, rfl, rfl, rfl⟩
  · obtain ⟨p, rfl⟩ := hmoves.value v u hu
    exact ⟨_, ht, rfl, rfl, rfl, rfl⟩
  · obtain ⟨p, rfl⟩ := hmoves.raised e u hu
    exact ⟨_, ht, rfl, rfl, rfl, rfl⟩

end Sys2Proof.Machine

/-! PROOFS. The statements on the bit-packed modes (spec/42_bit_packed.md): the group shift, what a read of `BITA` or
`BITB` answers for the stream bits at its cursor, and where and how it faults. -/

namespace Sys2Proof.Machine

/-! ## The group shift (R141) -/

theorem getLsbD_ofNat_shiftLeft (v : Byte) (k : Nat) {j : Nat} (hj : j < 32) :
    (BitVec.ofNat 32 (v.toNat <<< k)).getLsbD j = (decide (k ≤ j) && v.getLsbD (j - k)) := by
  simp only [BitVec.getLsbD_ofNat, Nat.testBit_shiftLeft, BitVec.testBit_toNat, hj, decide_true, Bool.true_and,
    ge_iff_le]

/-- Settles O36: either shift mode cuts a shift of `v` to 32 bits, by `k` or by `k % 32`. -/
theorem groupShiftPlacesBits : Obligations.GroupShiftPlacesBits := by
  refine fun p v k j hj => ⟨fun hmode => ?_, fun hmode => ?_⟩
  · rw [shl32, hmode]
    exact getLsbD_ofNat_shiftLeft v k hj
  · rw [shl32, hmode]
    exact getLsbD_ofNat_shiftLeft v (k % 32) hj

/-! ## The bit cursor (R45, R157) -/

theorem bitCursor_ediv (s : State) : bitCursor s / 8 = s.pos := by
  have := s.bitoff.isLt
  unfold bitCursor
  omega

theorem bitCursor_emod (s : State) : bitCursor s % 8 = (s.bitoff.toNat : Int) := by
  have := s.bitoff.isLt
  unfold bitCursor
  omega

theorem bitoff_eq_zero_iff (s : State) : s.bitoff = 0 ↔ bitCursor s % 8 = 0 := by
  rw [bitCursor_emod, ← BitVec.toNat_inj]
  simp

theorem toNat_add_one_eq_eight_iff (b : BitVec 3) : b.toNat + 1 = 8 ↔ b = 7 := by
  rw [← BitVec.toNat_inj]
  simp

theorem bitoff_eq_seven_iff (s : State) : s.bitoff = 7 ↔ bitCursor s % 8 = 7 := by
  rw [← toNat_add_one_eq_eight_iff, bitCursor_emod]
  omega

/-- The last byte that the logical byte at the cursor takes bits of. -/
theorem bitCursor_add_seven_ediv (s : State) : (bitCursor s + 7) / 8 = if s.bitoff = 0 then s.pos else s.pos + 1 := by
  have hpos := bitCursor_ediv s
  split
  case isTrue h0 =>
    have := (bitoff_eq_zero_iff s).1 h0
    omega
  case isFalse h0 =>
    have := mt (bitoff_eq_zero_iff s).2 h0
    omega

theorem ofInt_bitCursor (s : State) : BitVec.ofInt 3 (bitCursor s) = s.bitoff := by
  apply BitVec.eq_of_toNat_eq
  have := bitCursor_emod s
  rw [BitVec.toNat_ofInt]
  omega

theorem atBit_bitCursor (s t : State) : s.atBit (bitCursor t) = (s.setPos t.pos).setBitoff t.bitoff := by
  simp only [State.atBit, bitCursor_ediv, ofInt_bitCursor, State.setPos, State.setBitoff]

@[simp] theorem bitCursor_atBit (s : State) (n : Int) : bitCursor (s.atBit n) = n := by
  simp only [bitCursor, State.atBit, BitVec.toNat_ofInt]
  omega

@[simp] theorem atBit_atBit (s : State) (m n : Int) : (s.atBit m).atBit n = s.atBit n := rfl

theorem atBit_bitCursor_self (s : State) : s.atBit (bitCursor s) = s := atBit_bitCursor s s

theorem setPos_succ (s : State) : s.setPos (s.pos + 1) = s.atBit (bitCursor s + 8) := by
  have hbit : bitCursor s + 8 = bitCursor (s.setPos (s.pos + 1)) := by
    simp only [bitCursor, State.setPos]
    omega
  rw [hbit, atBit_bitCursor]
  rfl

theorem setBitoff_succ {s : State} (h : s.bitoff ≠ 7) :
    s.setBitoff (s.bitoff + 1) = s.atBit (bitCursor s + 1) := by
  have hbit : bitCursor s + 1 = bitCursor (s.setBitoff (s.bitoff + 1)) := by
    have hoff : (s.bitoff + 1).toNat = s.bitoff.toNat + 1 := by bv_omega
    simp only [bitCursor, State.setBitoff, hoff]
    omega
  rw [hbit, atBit_bitCursor]
  rfl

theorem setPos_succ_of_lastBit {s : State} (h : s.bitoff = 7) :
    (s.setBitoff 0).setPos (s.pos + 1) = s.atBit (bitCursor s + 1) := by
  have hnext : bitCursor ((s.setBitoff 0).setPos (s.pos + 1)) = 8 * (s.pos + 1) := add_zero _
  have hbit : bitCursor s + 1 = bitCursor ((s.setBitoff 0).setPos (s.pos + 1)) := by
    have := bitCursor_ediv s
    have := (bitoff_eq_seven_iff s).1 h
    omega
  rw [hbit, atBit_bitCursor]
  rfl

/-- The next eight stream bits stand in the byte at `POS` and, behind its end, in the one after it. -/
theorem streamBit_bitCursor_add (s : State) {k : Nat} (hk : k < 8) :
    streamBit s (bitCursor s + k) =
      if s.bitoff.toNat + k < 8 then (bufByte s s.pos).map fun b => b.getLsbD (7 - (s.bitoff.toNat + k))
      else (bufByte s (s.pos + 1)).map fun b => b.getLsbD (7 - (s.bitoff.toNat + k - 8)) := by
  have hoff := s.bitoff.isLt
  unfold streamBit bitCursor
  split
  · rw [show (8 * s.pos + s.bitoff.toNat + k) / 8 = s.pos by omega,
      show ((8 * s.pos + s.bitoff.toNat + k) % 8).toNat = s.bitoff.toNat + k by omega]
  · rw [show (8 * s.pos + s.bitoff.toNat + k) / 8 = s.pos + 1 by omega,
      show ((8 * s.pos + s.bitoff.toNat + k) % 8).toNat = s.bitoff.toNat + k - 8 by omega]

/-- The stream bit at the cursor is the marker bit of the byte at `POS` (R45, R144, R147). -/
theorem streamBit_bitCursor (s : State) :
    streamBit s (bitCursor s) = (bufByte s s.pos).map (markerBit · s.bitoff) := by
  have h := streamBit_bitCursor_add s (k := 0) (by decide)
  rwa [add_zero, if_pos s.bitoff.isLt, Nat.cast_zero, add_zero] at h

theorem exists_byte_of_streamBit {s : State} {t : Bool} (h : streamBit s (bitCursor s) = some t) :
    ∃ c, bufByte s s.pos = some c ∧ markerBit c s.bitoff = t := by
  rwa [streamBit_bitCursor, Option.map_eq_some_iff] at h

/-! ## Logical bytes (R145, R148) -/

theorem exists_byte_of_logicalByteAt {s : State} {n : Int} {b : Byte} (h : LogicalByteAt s n b) :
    ∃ d, bufByte s ((n + 7) / 8) = some d := by
  obtain ⟨d, hd, -⟩ := Option.map_eq_some_iff.1 (h 7 (by decide))
  exact ⟨d, hd⟩

theorem ite_lastIndex (n : Int) : (if n % 8 = 0 then n / 8 else n / 8 + 1) = (n + 7) / 8 := by
  split <;> omega

/-- The logical byte at the cursor is the merge of the byte at `POS` with the last byte it takes bits of. -/
theorem LogicalByteAt.eq_mergeBytes {s : State} {b : Byte} (h : LogicalByteAt s (bitCursor s) b) :
    ∃ c d, bufByte s s.pos = some c ∧ bufByte s ((bitCursor s + 7) / 8) = some d ∧ b = mergeBytes c d s.bitoff := by
  have hfirst : streamBit s (bitCursor s) = some (b.getLsbD 7) := by simpa using h 0 (by decide)
  obtain ⟨c, hc, -⟩ := exists_byte_of_streamBit hfirst
  obtain ⟨d, hd⟩ := exists_byte_of_logicalByteAt h
  refine ⟨c, d, hc, hd, BitVec.eq_of_getLsbD_eq fun j hj => ?_⟩
  have hbit := h (7 - j) (by omega)
  have hmerge := mergeIsTheNextEightBits c d s.bitoff (7 - j) (by omega)
  rw [streamBit_bitCursor_add s (by omega)] at hbit
  rw [show 7 - (7 - j) = j by omega] at hbit hmerge
  rw [hmerge]
  split at hbit
  case isTrue hlt => simpa [hc, hlt, eq_comm] using hbit
  case isFalse hge =>
    have hnext : s.pos + 1 = (bitCursor s + 7) / 8 := by
      unfold bitCursor
      omega
    simpa [hnext, hd, hge, eq_comm] using hbit

theorem mergeBytes_zero (c d : Byte) : mergeBytes c d 0 = c := by
  refine BitVec.eq_of_getLsbD_eq fun j hj => ?_
  rw [getLsbD_mergeBytes c d 0 hj, d.getLsbD_of_ge _ (by simp)]
  simp

/-! ## Lists of groups (R142, R158, R159) -/

theorem groupsAt_cons_iff {s : State} {n : Int} {b : Byte} {bs : List Byte} :
    GroupsAt s n (b :: bs) ↔ LogicalByteAt s n b ∧ GroupsAt s (n + 8) bs := by
  refine ⟨fun h => ⟨by simpa using h 0 b rfl, fun j c hj => ?_⟩, fun h => groupsAt_cons h.1 h.2⟩
  have hbit : n + 8 * ((j + 1 : Nat) : Int) = n + 8 + 8 * j := by omega
  exact hbit ▸ h (j + 1) c hj

theorem groupsAt_concat {s : State} {n : Int} {bs : List Byte} {b : Byte} (h : GroupsAt s n (bs ++ [b])) :
    GroupsAt s n bs ∧ LogicalByteAt s (n + 8 * bs.length) b := by
  refine ⟨fun j c hj => h j c ?_, h bs.length b List.getElem?_concat_length⟩
  rw [List.getElem?_append_left (List.getElem?_eq_some_iff.1 hj).1, hj]

theorem GroupsAt.exists_first_byte {s : State} {n : Int} {bs : List Byte} (h : GroupsAt s n bs) (hne : bs ≠ []) :
    ∃ c, bufByte s (n / 8) = some c := by
  obtain ⟨b, bs, rfl⟩ := List.exists_cons_of_ne_nil hne
  have hbit := h 0 b rfl 0 (by decide)
  simp only [Nat.cast_zero, mul_zero, add_zero] at hbit
  obtain ⟨c, hc, -⟩ := Option.map_eq_some_iff.1 hbit
  exact ⟨c, hc⟩

theorem bit_behind_concat (n : Int) (bs : List Byte) (b : Byte) :
    n + 8 * ((bs ++ [b]).length : Int) = n + 8 * bs.length + 8 := by
  rw [List.length_append, List.length_singleton]
  omega

/-- Where the groups end inside a byte, that byte is in the buffer, if the one they start inside is. -/
theorem GroupsAt.exists_byte_at_end {s : State} {n : Int} {bs : List Byte} (h : GroupsAt s n bs)
    (hn : n % 8 ≠ 0 → ∃ c, bufByte s (n / 8) = some c) (hend : (n + 8 * bs.length) % 8 ≠ 0) :
    ∃ c, bufByte s ((n + 8 * bs.length) / 8) = some c := by
  obtain rfl | ⟨init, last, rfl⟩ := List.eq_nil_or_concat bs
  · simpa using hn (by simpa using hend)
  · rw [List.concat_eq_append] at h hend ⊢
    rw [bit_behind_concat] at hend ⊢
    have hbyte : (n + 8 * (init.length : Int) + 8) / 8 = (n + 8 * init.length + 7) / 8 := by omega
    exact hbyte ▸ exists_byte_of_logicalByteAt (groupsAt_concat h).2

/-- Every one of the groups, of which the first is group `g`, is followed by another. -/
def GroupsGoOn (p : Params) (g : Nat) (bs : List Byte) : Prop :=
  ∀ (j : Nat) (b : Byte), bs[j]? = some b → GoesOn p (g + j) b

theorem groupsGoOn_cons {p : Params} {g : Nat} {b : Byte} {bs : List Byte} (h : GroupsGoOn p g (b :: bs)) :
    GoesOn p g b ∧ GroupsGoOn p (g + 1) bs := by
  refine ⟨h 0 b rfl, fun j c hj => ?_⟩
  rw [Nat.add_assoc, Nat.add_comm 1]
  exact h (j + 1) c hj

theorem groupsGoOn_zero {p : Params} {bs : List Byte}
    (h : ∀ (j : Nat) (b : Byte), bs[j]? = some b → GoesOn p j b) : GroupsGoOn p 0 bs := by
  intro j b hj
  rw [Nat.zero_add]
  exact h j b hj

/-- A whole value is groups that go on and a last one that does not. -/
theorem GroupsEnd.exists_last {p : Params} {bs : List Byte} (h : GroupsEnd p bs) :
    ∃ init last, bs = init ++ [last] ∧ GroupsGoOn p 0 init ∧ ¬ GoesOn p init.length last := by
  obtain ⟨hne, hgo⟩ := h
  obtain rfl | ⟨init, last, rfl⟩ := List.eq_nil_or_concat bs
  · exact absurd rfl hne
  rw [List.concat_eq_append] at hgo ⊢
  refine ⟨init, last, rfl, groupsGoOn_zero fun j b hj => ?_, fun hlast => ?_⟩
  · have hlt := (List.getElem?_eq_some_iff.1 hj).1
    exact (hgo j b (by rw [List.getElem?_append_left hlt, hj])).2 (by simpa using hlt)
  · simpa using (hgo _ last List.getElem?_concat_length).1 hlast

/-- The groups from `g` on, each placed by `group` and put together. -/
def orGroups (group : Nat → Byte → U32) : Nat → List Byte → U32
  | _, [] => 0
  | g, b :: bs => group g b ||| orGroups group (g + 1) bs

theorem orGroups_concat (group : Nat → Byte → U32) (g : Nat) (bs : List Byte) (b : Byte) :
    orGroups group g (bs ++ [b]) = orGroups group g bs ||| group (g + bs.length) b := by
  induction bs generalizing g with
  | nil => simp [orGroups]
  | cons c cs ih =>
    have hplace : g + 1 + cs.length = g + (c :: cs).length := by rw [List.length_cons]; omega
    rw [List.cons_append, orGroups, orGroups, ih, hplace, BitVec.or_assoc]

/-- Where variant A places a group (R146). -/
def groupA (p : Params) (g : Nat) (b : Byte) : U32 := shl32 p (b &&& 0x3F) (6 * g)

/-- Where variant B places a group (R149). -/
def groupB (p : Params) : Nat → Byte → U32
  | 0, b => (b &&& 0x3F).setWidth 32
  | i + 1, b => shl32 p (b &&& 0x7F) (6 + 7 * i)

theorem groupsValueA_eq_orGroups (p : Params) (g : Nat) (bs : List Byte) :
    groupsValueA p g bs = orGroups (groupA p) g bs := by
  induction bs generalizing g with
  | nil => rfl
  | cons b bs ih => rw [groupsValueA, orGroups, ih, groupA]

theorem laterGroupsB_eq_orGroups (p : Params) (i : Nat) (bs : List Byte) :
    laterGroupsB p i bs = orGroups (groupB p) (i + 1) bs := by
  induction bs generalizing i with
  | nil => rfl
  | cons b bs ih => rw [laterGroupsB, orGroups, ih, groupB]

theorem groupsValueB_eq_orGroups (p : Params) (bs : List Byte) : groupsValueB p bs = orGroups (groupB p) 0 bs := by
  cases bs with
  | nil => rfl
  | cons b bs => rw [groupsValueB, orGroups, laterGroupsB_eq_orGroups, groupB]

theorem groupsValueA_concat (p : Params) (bs : List Byte) (b : Byte) :
    groupsValueA p 0 (bs ++ [b]) = groupsValueA p 0 bs ||| groupA p bs.length b := by
  rw [groupsValueA_eq_orGroups, groupsValueA_eq_orGroups, orGroups_concat, Nat.zero_add]

theorem groupsValueB_concat (p : Params) (bs : List Byte) (b : Byte) :
    groupsValueB p (bs ++ [b]) = groupsValueB p bs ||| groupB p bs.length b := by
  rw [groupsValueB_eq_orGroups, groupsValueB_eq_orGroups, orGroups_concat, Nat.zero_add]

/-! ## How a bit-mode read ends (R150 to R156, R171) -/

theorem readVarint_bitb {s : State} (h : s.mode = .bitb) : readVarint s = drawOnRaise (uVarB s) := by
  simp only [readVarint, h]

/-- The draws overwrite the cursor registers. -/
theorem OnlyCursor.drawCursor_eq {s t : State} (h : OnlyCursor s t) : drawCursor t = drawCursor s := by
  rw [h]
  rfl

/-- What a read of the bit modes leaves when its decoder raised `OutOfRange` (R156, R171): the draws, and the fault. -/
theorem SharedRead.exec_of_raised {i : Instr} {f : U32 → Value} (hi : SharedRead i f) {s u : State} {r : Reply U32}
    {idx : Int} (hread : readVarint s = drawOnRaise r) (hr : Decodes s r) (h : r = .raised (.outOfRange idx) u) :
    exec i s = .next ((drawCursor s).faulted 1 (BitVec.ofInt 64 idx)) := by
  have hdraw := (hr.raised _ u h).1.drawCursor_eq
  rw [hi.exec_eq, readOne, hread, h, drawOnRaise, andThen_raised, finish_outOfRange, hdraw]

theorem SharedRead.exec_of_value {i : Instr} {f : U32 → Value} (hi : SharedRead i f) {s t : State} {u : U32}
    (h : readVarint s = .value u t) : exec i s = .next (t.answered (some (f u))) := by
  rw [hi.exec_eq, readOne, h, andThen_value, finish_value]

section Ends
variable {s t : State} {i : Instr} {f : U32 → Value} (hi : SharedRead i f)
include hi

theorem SharedRead.bita_value (hm : s.mode = .bita) {u : U32} (h : uVarA s = .value u t) :
    exec i s = .next (t.answered (some (f u))) :=
  hi.exec_of_value (by rw [readVarint_bita hm, h, drawOnRaise])

theorem SharedRead.bitb_value (hm : s.mode = .bitb) {u : U32} (h : uVarB s = .value u t) :
    exec i s = .next (t.answered (some (f u))) :=
  hi.exec_of_value (by rw [readVarint_bitb hm, h, drawOnRaise])

theorem SharedRead.bita_raised (hm : s.mode = .bita) {idx : Int} (h : uVarA s = .raised (.outOfRange idx) t) :
    exec i s = .next ((drawCursor s).faulted 1 (BitVec.ofInt 64 idx)) :=
  hi.exec_of_raised (readVarint_bita hm) (uVarA_decodes s) h

theorem SharedRead.bitb_raised (hm : s.mode = .bitb) {idx : Int} (h : uVarB s = .raised (.outOfRange idx) t) :
    exec i s = .next ((drawCursor s).faulted 1 (BitVec.ofInt 64 idx)) :=
  hi.exec_of_raised (readVarint_bitb hm) (uVarB_decodes s) h

end Ends

theorem bita_or_bitb {m : Mode} (h : m ≠ .byte) : m = .bita ∨ m = .bitb := by
  cases m with
  | byte => exact absurd rfl h
  | bita => exact .inl rfl
  | bitb => exact .inr rfl

/-- In the bit modes the varint is a decoder's reply, which a `raise` leaves as R156 says. -/
theorem readVarint_of_bit_mode {s : State} (h : s.mode ≠ .byte) :
    ∃ r, readVarint s = drawOnRaise r ∧ Decodes s r := by
  obtain hm | hm := bita_or_bitb h
  · exact ⟨_, readVarint_bita hm, uVarA_decodes s⟩
  · exact ⟨_, readVarint_bitb hm, uVarB_decodes s⟩

/-- Settles O41: a decoder raises nothing but `OutOfRange` of an index outside, and the draws overwrite what it left. -/
theorem bitReadFaultLeavesDraws : Obligations.BitReadFaultLeavesDraws := by
  intro s t i f code hc hi hm hexec hfault
  obtain ⟨r, hread, hr⟩ := readVarint_of_bit_mode hm
  cases hend : r with
  | value u v =>
    have hok := hi.exec_of_value (by rw [hread, hend, drawOnRaise])
    obtain ⟨-, -, -, -, -, -, hresponses⟩ := (hr.value u v hend).onlyRegisters.fields
    cases hexec.symm.trans hok
    simp [State.answered, hresponses] at hfault
  | raised e v =>
    obtain ⟨-, idx, rfl, hnone⟩ := hr.raised e v hend
    cases hexec.symm.trans (hi.exec_of_raised hread hr hend)
    obtain ⟨hmin, hmax⟩ := argValue_range hc (Config.drawPos s.draws)
    exact ⟨_, _, _, idx, hmin, hmax, hnone, rfl⟩
  | stuck e =>
    rw [hi.exec_eq, readOne, hread, hend] at hexec
    cases hexec

/-! ## Variant B (R147 to R149) -/

theorem isZeroB_of_one {s : State} (h : streamBit s (bitCursor s) = some true) : isZeroB s = .value false s := by
  obtain ⟨c, hc, hmarker⟩ := exists_byte_of_streamBit h
  simp [isZeroB, memRead_of_some hc, hmarker]

theorem isZeroB_of_zero {s : State} (h : streamBit s (bitCursor s) = some false) :
    isZeroB s = .value true (s.atBit (bitCursor s + 1)) := by
  obtain ⟨c, hc, hmarker⟩ := exists_byte_of_streamBit h
  simp only [isZeroB, memRead_of_some hc, andThen_value, hmarker, Bool.false_eq_true, if_false,
    toNat_add_one_eq_eight_iff]
  split
  case isTrue h7 => rw [← setPos_succ_of_lastBit h7]
  case isFalse h7 => rw [setBitoff_succ h7]

theorem uVarB_of_zero {s : State} (h : streamBit s (bitCursor s) = some false) :
    uVarB s = .value 0 (s.atBit (bitCursor s + 1)) := by
  simp [uVarB, isZeroB_of_zero h]

/-- Settles O37: `UVarB` ends with its zero test. -/
theorem bitbZeroMarkerIsOneBit : Obligations.BitbZeroMarkerIsOneBit :=
  fun _ _ _ hi hm hzero => hi.bitb_value hm (uVarB_of_zero hzero)

theorem rawByteB_of_logicalByteAt {s : State} {b : Byte} (h : LogicalByteAt s (bitCursor s) b) :
    rawByteB s = .value b (s.atBit (bitCursor s + 8)) := by
  obtain ⟨c, d, hc, hd, rfl⟩ := h.eq_mergeBytes
  unfold rawByteB
  split
  case isTrue h0 => rw [memRead_of_some hc, andThen_value, h0, mergeBytes_zero, setPos_succ]
  case isFalse h0 =>
    rw [bitCursor_add_seven_ediv, if_neg h0] at hd
    rw [memRead_of_some hc, andThen_value, memRead_of_some hd, andThen_value, setPos_succ]

/-- A logical byte whose last byte is outside is refused with that byte's index; inside a byte, the first one is
there. -/
theorem rawByteB_of_outside {s : State} (hfirst : bitCursor s % 8 ≠ 0 → ∃ c, bufByte s (bitCursor s / 8) = some c)
    (h : bufByte s ((bitCursor s + 7) / 8) = none) :
    rawByteB s = .raised (.outOfRange ((bitCursor s + 7) / 8)) s := by
  rw [bitCursor_ediv, ne_eq, ← bitoff_eq_zero_iff] at hfirst
  rw [bitCursor_add_seven_ediv] at h ⊢
  by_cases h0 : s.bitoff = 0
  case pos =>
    rw [if_pos h0] at h ⊢
    rw [rawByteB, if_pos h0, memRead_of_none h, andThen_raised]
  case neg =>
    rw [if_neg h0] at h ⊢
    obtain ⟨c, hc⟩ := hfirst h0
    rw [rawByteB, if_neg h0, memRead_of_some hc, andThen_value, memRead_of_none h, andThen_raised]

/-- The rest of `UVarB` from its group `i` on, which it has yet to read (R149). -/
def readGroupsB (budget i : Nat) (result : U32) (s : State) : Reply U32 :=
  (rawByteB s).andThen fun b t => uVarBLoop budget i b (result ||| groupB t.params i b) t

/-- The budget of the loop is set behind the first group. -/
theorem uVarB_of_one {s : State} (h : streamBit s (bitCursor s) = some true) :
    ∃ budget, uVarB s = readGroupsB budget 0 0 s := by
  simp only [uVarB, isZeroB_of_one h, andThen_value, Bool.false_eq_true, if_false, readGroupsB, groupB,
    BitVec.ofNat_eq_ofNat, BitVec.zero_or]
  cases rawByteB s with
  | value b t => exact ⟨groupBudget t, rfl⟩
  | raised e t => exact ⟨0, rfl⟩
  | stuck f => exact ⟨0, rfl⟩

section GroupB
variable {s : State} {budget i : Nat} {b : Byte} {result : U32}

theorem readGroupsB_of_logicalByteAt (h : LogicalByteAt s (bitCursor s) b) :
    readGroupsB budget i result s =
      uVarBLoop budget i b (result ||| groupB s.params i b) (s.atBit (bitCursor s + 8)) := by
  rw [readGroupsB, rawByteB_of_logicalByteAt h, andThen_value]
  rfl

/-- The loop stops at a group that does not go on: the negation of `GoesOn` is its condition. -/
theorem uVarBLoop_of_not_goesOn (h : ¬ GoesOn s.params i b) : uVarBLoop budget i b result s = .value result s := by
  unfold uVarBLoop
  rw [if_pos]
  simpa [GoesOn, imp_iff_not_or] using h

theorem readGroupsB_of_last (h : LogicalByteAt s (bitCursor s) b) (hlast : ¬ GoesOn s.params i b) :
    readGroupsB budget i result s =
      .value (result ||| groupB s.params i b) (s.atBit (bitCursor s + 8)) := by
  rw [readGroupsB_of_logicalByteAt h]
  exact uVarBLoop_of_not_goesOn (s := s.atBit (bitCursor s + 8)) hlast

theorem uVarBLoop_of_goesOn (h : GoesOn s.params i b) :
    uVarBLoop (budget + 1) i b result s = readGroupsB budget (i + 1) result s := by
  obtain ⟨hcont, hcap⟩ := h
  rw [uVarBLoop, if_neg (by simp [hcont, hcap])]
  rfl

/-- Unless the budget ends it, the loop goes from a group that goes on to the next one. -/
theorem readGroupsB_of_goesOn (h : LogicalByteAt s (bitCursor s) b) (hgo : GoesOn s.params i b)
    (hends : (readGroupsB budget i result s).Ends) :
    ∃ budget', readGroupsB budget i result s =
      readGroupsB budget' (i + 1) (result ||| groupB s.params i b) (s.atBit (bitCursor s + 8)) := by
  rw [readGroupsB_of_logicalByteAt h] at hends ⊢
  cases budget with
  | zero =>
    refine absurd ?_ (hends .groupBudgetSpent)
    obtain ⟨hcont, hcap⟩ := hgo
    rw [uVarBLoop, if_neg (by simp [hcont, State.atBit, hcap])]
  | succ budget => exact ⟨budget, uVarBLoop_of_goesOn (s := s.atBit (bitCursor s + 8)) hgo⟩

/-- Groups that all go on are read one after the other, and the cursor stands behind them. -/
theorem readGroupsB_of_groupsGoOn {bs : List Byte} (h : GroupsAt s (bitCursor s) bs)
    (hgo : GroupsGoOn s.params i bs) (hends : (readGroupsB budget i result s).Ends) :
    ∃ budget', readGroupsB budget i result s =
      readGroupsB budget' (i + bs.length) (result ||| orGroups (groupB s.params) i bs)
        (s.atBit (bitCursor s + 8 * bs.length)) := by
  induction bs generalizing budget i result s with
  | nil => exact ⟨budget, by simp [orGroups, atBit_bitCursor_self]⟩
  | cons b bs ih =>
    obtain ⟨hb, hbs⟩ := groupsAt_cons_iff.1 h
    obtain ⟨hgob, hgobs⟩ := groupsGoOn_cons hgo
    obtain ⟨budget₁, h₁⟩ := readGroupsB_of_goesOn hb hgob hends
    rw [h₁] at hends
    rw [← bitCursor_atBit s (bitCursor s + 8)] at hbs
    obtain ⟨budget₂, h₂⟩ := ih hbs hgobs hends
    refine ⟨budget₂, h₁.trans (h₂.trans ?_)⟩
    rw [orGroups, bitCursor_atBit, atBit_atBit, List.length_cons, ← BitVec.or_assoc]
    have hgroup : i + 1 + bs.length = i + (bs.length + 1) := by omega
    have hbit : bitCursor s + 8 + 8 * (bs.length : Int) = bitCursor s + 8 * ((bs.length + 1 : Nat) : Int) := by omega
    rw [hgroup, hbit]
    rfl

end GroupB

/-- A value's groups that go on are read in turn, and the decoder stands before its next group. -/
theorem uVarB_of_groupsGoOn {s : State} {bs : List Byte} (h1 : streamBit s (bitCursor s) = some true)
    (h : GroupsAt s (bitCursor s) bs) (hgo : GroupsGoOn s.params 0 bs) :
    ∃ budget, uVarB s =
      readGroupsB budget bs.length (groupsValueB s.params bs) (s.atBit (bitCursor s + 8 * bs.length)) := by
  obtain ⟨budget₁, hstart⟩ := uVarB_of_one h1
  obtain ⟨budget₂, hread⟩ := readGroupsB_of_groupsGoOn h hgo (hstart ▸ uVarB_ends s)
  refine ⟨budget₂, hstart.trans (hread.trans ?_)⟩
  rw [Nat.zero_add, BitVec.ofNat_eq_ofNat, BitVec.zero_or, ← groupsValueB_eq_orGroups]

/-- Settles O38: the last group ends the loop. -/
theorem bitbValueIsItsGroups : Obligations.BitbValueIsItsGroups := by
  intro s i f bs hi hm h1 hat hend
  obtain ⟨init, last, rfl, hgo, hlast⟩ := hend.exists_last
  obtain ⟨hinit, hbyte⟩ := groupsAt_concat hat
  obtain ⟨budget, hread⟩ := uVarB_of_groupsGoOn h1 hinit hgo
  have hend := readGroupsB_of_last (s := s.atBit (bitCursor s + 8 * init.length)) (budget := budget)
    (result := groupsValueB s.params init) (by rwa [bitCursor_atBit]) hlast
  rw [bit_behind_concat, groupsValueB_concat]
  rw [bitCursor_atBit] at hend
  exact hi.bitb_value hm (hread.trans hend)

/-- Settles O42: behind the groups that go on, the read of the next one is refused. -/
theorem bitbRunsOffTheBuffer : Obligations.BitbRunsOffTheBuffer := by
  rintro s i f bs m hi hm h1 hat hgo rfl hout
  obtain ⟨c, hc, -⟩ := exists_byte_of_streamBit h1
  obtain ⟨budget, hread⟩ := uVarB_of_groupsGoOn h1 hat (groupsGoOn_zero hgo)
  rw [ite_lastIndex] at hout ⊢
  have hraise := rawByteB_of_outside (s := s.atBit (bitCursor s + 8 * bs.length))
    (fun h8 => by
      rw [bitCursor_atBit] at h8 ⊢
      exact hat.exists_byte_at_end (fun _ => ⟨c, by rwa [bitCursor_ediv]⟩) h8)
    (by rw [bitCursor_atBit]; exact hout)
  rw [bitCursor_atBit] at hraise
  rw [readGroupsB, hraise, andThen_raised] at hread
  exact ⟨_, _, _, hi.bitb_raised hm hread⟩

/-! ## Variant A (R143 to R146) -/

theorem curA_of_byte {s : State} {c : Byte} (hs : s.Coherent) (hc : bufByte s s.pos = some c) :
    curA s = .value c (s.loadCache c) := by
  rw [curA_of_coherent hs, memRead_of_some hc, andThen_value]

theorem curA_of_outside {s : State} (hs : s.Coherent) (h : bufByte s s.pos = none) :
    curA s = .raised (.outOfRange s.pos) s := by
  rw [curA_of_coherent hs, memRead_of_none h, andThen_raised]

section Rollover
variable {s : State}

theorem rolloverA_of_lazy (h : s.params.aEagerRollover = false) :
    rolloverA s = .value () ((s.setBitoff 0).setPos (s.pos + 1)).dropCache := by
  simp [rolloverA, h]

theorem rolloverA_of_eager (h : s.params.aEagerRollover = true) {b : Byte} (hb : bufByte s (s.pos + 1) = some b) :
    rolloverA s = .value () (((s.setBitoff 0).setPos (s.pos + 1)).loadCache b) := by
  have hread := memRead_of_some (s := (s.setBitoff 0).setPos (s.pos + 1)) hb
  simp only [rolloverA, State.setPos_params, State.setBitoff_params, h, if_true, State.setPos_pos, hread, andThen_value]

theorem rolloverA_of_eager_outside (h : s.params.aEagerRollover = true) (hb : bufByte s (s.pos + 1) = none) :
    rolloverA s = .raised (.outOfRange (s.pos + 1)) ((s.setBitoff 0).setPos (s.pos + 1)) := by
  have hread := memRead_of_none (s := (s.setBitoff 0).setPos (s.pos + 1)) hb
  simp only [rolloverA, State.setPos_params, State.setBitoff_params, h, if_true, State.setPos_pos, hread,
    andThen_raised]

end Rollover

/-! ### The zero test (R144) -/

section ZeroTest
variable {s : State} {c : Byte} (hs : s.Coherent) (hc : bufByte s s.pos = some c)
include hs hc

theorem isZeroA_of_kept (h : markerBit c s.bitoff = true) (hkeep : s.params.aConsumeOnNonzero = false) :
    isZeroA s = .value false (s.loadCache c) := by
  simp [isZeroA, curA_of_byte hs hc, h, hkeep]

theorem isZeroA_of_inside (h : markerBit c s.bitoff = true → s.params.aConsumeOnNonzero = true) (h7 : s.bitoff ≠ 7) :
    isZeroA s = .value (!markerBit c s.bitoff) ((s.loadCache c).setBitoff (s.bitoff + 1)) := by
  have hlast : ¬ s.bitoff.toNat + 1 = 8 := mt (toNat_add_one_eq_eight_iff s.bitoff).1 h7
  have hkept : ¬ (markerBit c s.bitoff = true ∧ ¬ s.params.aConsumeOnNonzero = true) := fun hk => hk.2 (h hk.1)
  simp only [isZeroA, curA_of_byte hs hc, andThen_value, State.loadCache_bitoff, State.loadCache_params, hkept, hlast,
    if_false]

theorem isZeroA_of_lastBit (h : markerBit c s.bitoff = true → s.params.aConsumeOnNonzero = true)
    (h7 : s.bitoff = 7) :
    isZeroA s = (rolloverA (s.loadCache c)).andThen fun _ t => .value (!markerBit c s.bitoff) t := by
  have hlast : s.bitoff.toNat + 1 = 8 := (toNat_add_one_eq_eight_iff s.bitoff).2 h7
  have hkept : ¬ (markerBit c s.bitoff = true ∧ ¬ s.params.aConsumeOnNonzero = true) := fun hk => hk.2 (h hk.1)
  simp only [isZeroA, curA_of_byte hs hc, andThen_value, State.loadCache_bitoff, State.loadCache_params, hkept, hlast,
    if_true, if_false]

end ZeroTest

theorem uVarA_of_isZeroA_true {s t : State} (h : isZeroA s = .value true t) : uVarA s = .value 0 t := by
  rw [uVarA, h, andThen_value, if_pos rfl]

theorem uVarA_of_isZeroA_raised {s t : State} {e : Raise} (h : isZeroA s = .raised e t) : uVarA s = .raised e t := by
  rw [uVarA, h, andThen_raised]

/-- Settles O39: `UVarA` ends with its zero test, and the test either stays inside the byte or rolls over. -/
theorem bitaZeroMarkerIsOneBit : Obligations.BitaZeroMarkerIsOneBit := by
  intro s i f c hi hm hs hc hzero
  have hmarker : markerBit c s.bitoff = false := hzero
  have hconsume : markerBit c s.bitoff = true → s.params.aConsumeOnNonzero = true := by simp [hmarker]
  refine ⟨fun h7 => ?_, fun h7 hlazy => ?_, fun h7 heager b hb => ?_⟩
  · have hread := isZeroA_of_inside hs hc hconsume h7
    rw [hmarker] at hread
    exact hi.bita_value hm (uVarA_of_isZeroA_true hread)
  · have hread := isZeroA_of_lastBit hs hc hconsume h7
    rw [hmarker, rolloverA_of_lazy (s := s.loadCache c) hlazy] at hread
    exact hi.bita_value hm (uVarA_of_isZeroA_true hread)
  · have hread := isZeroA_of_lastBit hs hc hconsume h7
    rw [hmarker, rolloverA_of_eager (s := s.loadCache c) heager hb] at hread
    exact hi.bita_value hm (uVarA_of_isZeroA_true hread)

/-- Settles O45: the cursor is at bit 7 of the last byte, and the byte of the rollover is outside. -/
theorem eagerRolloverFaultsAtTheEnd : Obligations.EagerRolloverFaultsAtTheEnd := by
  intro s i f hi hm hs heager _ hend hzero
  obtain ⟨c, hc, hmarker⟩ := exists_byte_of_streamBit hzero
  have h7 : s.bitoff = 7 := (bitoff_eq_seven_iff s).2 (by omega)
  have hpos : s.pos + 1 = (s.params.bufLen : Int) := by
    have := bitCursor_ediv s
    omega
  have hnone : bufByte s (s.pos + 1) = none := bufByte_eq_none.2 (by omega)
  have hread := isZeroA_of_lastBit hs hc (by simp [hmarker]) h7
  rw [rolloverA_of_eager_outside (s := s.loadCache c) heager hnone] at hread
  rw [← hpos]
  exact ⟨_, _, _, hi.bita_raised hm (uVarA_of_isZeroA_raised hread)⟩

/-- Settles O44: both variants begin with the byte at `POS`. -/
theorem markerOutsideTheBufferFaults : Obligations.MarkerOutsideTheBufferFaults := by
  intro s i f hi hm hs hnone
  obtain hmode | hmode := bita_or_bitb hm
  · have hread : isZeroA s = .raised (.outOfRange s.pos) s := by rw [isZeroA, curA_of_outside hs hnone, andThen_raised]
    exact ⟨_, _, _, hi.bita_raised hmode (uVarA_of_isZeroA_raised hread)⟩
  · have hread : uVarB s = .raised (.outOfRange s.pos) s := by
      rw [uVarB, isZeroB, memRead_of_none hnone, andThen_raised, andThen_raised]
    exact ⟨_, _, _, hi.bitb_raised hmode hread⟩

/-- `s` with `CURB` and `CURV` written. -/
def State.withCache (s : State) (c : Byte) (v : Bool) : State := { s with curb := c, curv := v }

/-- `s` with its cursor at bit `n` and a coherent cache. -/
def ReadyAt (s : State) (n : Int) (t : State) : Prop := t.Coherent ∧ ∃ c v, t = (s.atBit n).withCache c v

theorem ReadyAt.self {s : State} (hs : s.Coherent) : ReadyAt s (bitCursor s) s :=
  ⟨hs, s.curb, s.curv, by rw [atBit_bitCursor_self]; rfl⟩

theorem ReadyAt.trans {s t u : State} {m n : Int} (ht : ReadyAt s m t) (hu : ReadyAt t n u) : ReadyAt s n u := by
  obtain ⟨-, c, v, rfl⟩ := ht
  obtain ⟨hcoh, c', v', rfl⟩ := hu
  exact ⟨hcoh, c', v', rfl⟩

/-- A coherent state at the last bit of a byte rolls over to the next one, but where that is fetched at once and is
outside. -/
theorem rolloverA_cases {s : State} (h7 : s.bitoff = 7) :
    (∃ t, ReadyAt s (bitCursor s + 1) t ∧ rolloverA s = .value () t) ∨
    (bufByte s (s.pos + 1) = none ∧ ∃ t, rolloverA s = .raised (.outOfRange (s.pos + 1)) t) := by
  have hnext := setPos_succ_of_lastBit h7
  cases heager : s.params.aEagerRollover with
  | false =>
    refine .inl ⟨_, ⟨coherent_of_curv rfl, s.curb, false, ?_⟩, rolloverA_of_lazy heager⟩
    rw [← hnext]
    rfl
  | true =>
    cases hb : bufByte s (s.pos + 1) with
    | some b =>
      refine .inl ⟨_, ⟨fun _ => hb, b, true, ?_⟩, rolloverA_of_eager heager hb⟩
      rw [← hnext]
      rfl
    | none => exact .inr ⟨rfl, _, rolloverA_of_eager_outside heager hb⟩

/-- A marker 1 is passed, consumed or not, but where the next byte is fetched at once and is outside. -/
theorem isZeroA_of_one {s : State} {n : Int} (hs : s.Coherent) (h : streamBit s (bitCursor s) = some true)
    (hn : n = bitCursor s + (if s.params.aConsumeOnNonzero = true then 1 else 0)) :
    (∃ t, ReadyAt s n t ∧ isZeroA s = .value false t) ∨
    (n % 8 = 0 ∧ bufByte s (n / 8) = none ∧ ∃ t, isZeroA s = .raised (.outOfRange (n / 8)) t) := by
  obtain ⟨c, hc, hmarker⟩ := exists_byte_of_streamBit h
  have hload : ReadyAt s (bitCursor s) (s.loadCache c) := ⟨fun _ => hc, c, true, by rw [atBit_bitCursor_self]; rfl⟩
  cases hconsume : s.params.aConsumeOnNonzero with
  | false =>
    obtain rfl : n = bitCursor s := by simp [hn, hconsume]
    exact .inl ⟨_, hload, isZeroA_of_kept hs hc hmarker hconsume⟩
  | true =>
    obtain rfl : n = bitCursor s + 1 := by simp [hn, hconsume]
    by_cases h7 : s.bitoff = 7
    case neg =>
      have hread := isZeroA_of_inside hs hc (fun _ => hconsume) h7
      rw [hmarker] at hread
      refine .inl ⟨_, ⟨fun _ => hc, c, true, ?_⟩, hread⟩
      rw [← setBitoff_succ h7]
      rfl
    case pos =>
      have hread := isZeroA_of_lastBit hs hc (fun _ => hconsume) h7
      obtain ⟨t, ht, hroll⟩ | ⟨hnone, t, hroll⟩ := rolloverA_cases (s := s.loadCache c) h7
      · rw [hroll, hmarker] at hread
        exact .inl ⟨t, hload.trans ht, hread⟩
      · rw [hroll] at hread
        have hmod := (bitoff_eq_seven_iff s).1 h7
        have hnext : (bitCursor s + 1) / 8 = s.pos + 1 := by
          have := bitCursor_ediv s
          omega
        rw [hnext]
        exact .inr ⟨by omega, hnone, t, hread⟩

/-! ### Logical bytes and the loop (R145, R146) -/

section GroupA
variable {s : State} {b : Byte}

theorem rawByteA_of_logicalByteAt (hs : s.Coherent) (h : LogicalByteAt s (bitCursor s) b) :
    ∃ d, bufByte s ((bitCursor s + 7) / 8) = some d ∧
      rawByteA s = .value b ((s.atBit (bitCursor s + 8)).withCache d (decide (bitCursor s % 8 ≠ 0))) := by
  obtain ⟨c, d, hc, hd, rfl⟩ := h.eq_mergeBytes
  refine ⟨d, hd, ?_⟩
  rw [← setPos_succ, rawByteA, curA_of_byte hs hc, andThen_value]
  by_cases h0 : s.bitoff = 0
  case pos =>
    rw [bitCursor_add_seven_ediv, if_pos h0, hc] at hd
    obtain rfl : c = d := Option.some.inj hd
    simp only [State.loadCache_bitoff, h0, if_true, mergeBytes_zero, (bitoff_eq_zero_iff s).1 h0]
    rfl
  case neg =>
    rw [bitCursor_add_seven_ediv, if_neg h0] at hd
    have hread := memRead_of_some (s := s.loadCache c) hd
    rw [decide_eq_true (mt (bitoff_eq_zero_iff s).2 h0)]
    simp only [State.loadCache_bitoff, State.loadCache_pos, h0, if_false, hread, andThen_value]
    rfl

/-- A logical byte whose last byte is outside is refused with that byte's index; inside a byte, the first one is
there. -/
theorem rawByteA_of_outside (hs : s.Coherent)
    (hfirst : bitCursor s % 8 ≠ 0 → ∃ c, bufByte s (bitCursor s / 8) = some c)
    (h : bufByte s ((bitCursor s + 7) / 8) = none) :
    ∃ t, rawByteA s = .raised (.outOfRange ((bitCursor s + 7) / 8)) t := by
  rw [bitCursor_ediv, ne_eq, ← bitoff_eq_zero_iff] at hfirst
  rw [bitCursor_add_seven_ediv] at h ⊢
  by_cases h0 : s.bitoff = 0
  case pos =>
    rw [if_pos h0] at h ⊢
    rw [rawByteA, curA_of_outside hs h]
    exact ⟨_, rfl⟩
  case neg =>
    obtain ⟨c, hc⟩ := hfirst h0
    rw [if_neg h0] at h ⊢
    have hread := memRead_of_none (s := s.loadCache c) h
    simp only [rawByteA, curA_of_byte hs hc, andThen_value, State.loadCache_bitoff, State.loadCache_pos, h0, if_false,
      hread, andThen_raised]
    exact ⟨_, rfl⟩

/-- The cache that a logical byte leaves holds the byte the cursor is inside of, if it is inside one. -/
theorem readyAt_of_lastByte {n : Int} {d : Byte} (hd : bufByte s ((n + 7) / 8) = some d) :
    ReadyAt s (n + 8) ((s.atBit (n + 8)).withCache d (decide (n % 8 ≠ 0))) := by
  refine ⟨fun hv => ?_, _, _, rfl⟩
  have h0 : n % 8 ≠ 0 := of_decide_eq_true hv
  have hpos : (n + 8) / 8 = (n + 7) / 8 := by omega
  exact (congrArg (bufByte s) hpos).trans hd

theorem ReadyAt.bitCursor_eq {t : State} {n : Int} (h : ReadyAt s n t) : bitCursor t = n := by
  obtain ⟨-, c, v, rfl⟩ := h
  exact bitCursor_atBit s n

theorem ReadyAt.onlyCursor {t : State} {n : Int} (h : ReadyAt s n t) : OnlyCursor s t := by
  obtain ⟨-, c, v, rfl⟩ := h
  rfl

/-- One round of the loop: `UVarA` goes on or ends with the logical byte it has read. -/
theorem uVarALoop_of_goesOn {t : State} {budget g : Nat} {result : U32} (hread : rawByteA s = .value b t)
    (hgo : GoesOn t.params g b) :
    uVarALoop (budget + 1) g result s = uVarALoop budget (g + 1) (result ||| groupA t.params g b) t := by
  obtain ⟨hcont, hcap⟩ := hgo
  rw [uVarALoop, hread, andThen_value]
  exact if_neg (by simp [hcont, hcap])

theorem uVarALoop_of_not_goesOn {t : State} {budget g : Nat} {result : U32} (hread : rawByteA s = .value b t)
    (hlast : ¬ GoesOn t.params g b) :
    uVarALoop (budget + 1) g result s = .value (result ||| groupA t.params g b) t := by
  rw [uVarALoop, hread, andThen_value]
  exact if_pos (by simpa [GoesOn, imp_iff_not_or] using hlast)

theorem exists_succ_of_uVarALoop_ends {budget g : Nat} {result : U32} (h : (uVarALoop budget g result s).Ends) :
    ∃ budget', budget = budget' + 1 := by
  cases budget with
  | zero => exact absurd rfl (h .groupBudgetSpent)
  | succ budget => exact ⟨budget, rfl⟩

theorem ReadyAt.groupsAt {t : State} {n : Int} {bs : List Byte} (ht : ReadyAt s n t) (h : GroupsAt s n bs) :
    GroupsAt t (bitCursor t) bs := by
  rw [ht.bitCursor_eq]
  obtain ⟨-, c, v, rfl⟩ := ht
  exact h

end GroupA

/-- Groups that all go on are read one after the other, and the loop stands before the next one. -/
theorem uVarALoop_of_groupsGoOn {s : State} {bs : List Byte} {budget g : Nat} {result : U32} (hs : s.Coherent)
    (h : GroupsAt s (bitCursor s) bs) (hgo : GroupsGoOn s.params g bs) (hends : (uVarALoop budget g result s).Ends) :
    ∃ budget' t, ReadyAt s (bitCursor s + 8 * bs.length) t ∧
      uVarALoop budget g result s =
        uVarALoop (budget' + 1) (g + bs.length) (result ||| orGroups (groupA s.params) g bs) t := by
  obtain ⟨budget, rfl⟩ := exists_succ_of_uVarALoop_ends hends
  induction bs generalizing budget g result s with
  | nil =>
    refine ⟨budget, s, ?_, by simp [orGroups]⟩
    simpa using ReadyAt.self hs
  | cons b bs ih =>
    obtain ⟨hb, hbs⟩ := groupsAt_cons_iff.1 h
    obtain ⟨hgob, hgobs⟩ := groupsGoOn_cons hgo
    obtain ⟨d, hd, hread⟩ := rawByteA_of_logicalByteAt hs hb
    have hnext := readyAt_of_lastByte hd
    have hround := uVarALoop_of_goesOn (budget := budget) (result := result) hread hgob
    rw [hround] at hends
    obtain ⟨budget₁, rfl⟩ := exists_succ_of_uVarALoop_ends hends
    obtain ⟨budget₂, t, ht, hrest⟩ := ih hnext.1 (hnext.bitCursor_eq.symm ▸ hbs) hgobs _ hends
    rw [hnext.bitCursor_eq] at ht
    have hgroup : g + 1 + bs.length = g + (b :: bs).length := by rw [List.length_cons]; omega
    have hbit : bitCursor s + 8 + 8 * (bs.length : Int) = bitCursor s + 8 * ((b :: bs).length : Int) := by
      rw [List.length_cons]; omega
    refine ⟨budget₂, t, hbit ▸ hnext.trans ht, hround.trans (hrest.trans ?_)⟩
    rw [hgroup, BitVec.or_assoc]
    rfl

/-- A value's marker and the groups that go on behind it are read in turn, and the decoder stands before its next
group; or the byte behind the marker is fetched at once and is outside. -/
theorem uVarA_of_groupsGoOn {s : State} {bs : List Byte} {n : Int} (hs : s.Coherent)
    (h1 : streamBit s (bitCursor s) = some true)
    (hn : n = bitCursor s + (if s.params.aConsumeOnNonzero = true then 1 else 0)) (h : GroupsAt s n bs)
    (hgo : GroupsGoOn s.params 0 bs) :
    (∃ budget t, ReadyAt s (n + 8 * bs.length) t ∧
      uVarA s = uVarALoop (budget + 1) bs.length (groupsValueA s.params 0 bs) t) ∨
    (n % 8 = 0 ∧ bufByte s (n / 8) = none ∧ ∃ t, uVarA s = .raised (.outOfRange (n / 8)) t) := by
  obtain ⟨t, ht, hzero⟩ | ⟨h8, hnone, t, hraise⟩ := isZeroA_of_one hs h1 hn
  · have hcursor := ht.onlyCursor
    have hstart : uVarA s = uVarALoop (groupBudget t) 0 0 t := by
      rw [uVarA, hzero, andThen_value, if_neg Bool.false_ne_true]
    obtain ⟨budget, u, hu, hread⟩ :=
      uVarALoop_of_groupsGoOn ht.1 (ht.groupsAt h) (hcursor.params.symm ▸ hgo) (uVarALoop_groupBudget_ends 0 0 t)
    rw [ht.bitCursor_eq] at hu
    refine .inl ⟨budget, u, ht.trans hu, hstart.trans (hread.trans ?_)⟩
    rw [Nat.zero_add, BitVec.ofNat_eq_ofNat, BitVec.zero_or, hcursor.params, groupsValueA_eq_orGroups]
  · exact .inr ⟨h8, hnone, t, uVarA_of_isZeroA_raised hraise⟩

/-- Settles O40: the last group ends the loop, and its last byte is what the cache was loaded with. -/
theorem bitaValueIsItsGroups : Obligations.BitaValueIsItsGroups := by
  rintro s i f bs n m hi hm hs h1 hn rfl hat hend
  obtain ⟨init, last, rfl, hgo, hlast⟩ := hend.exists_last
  obtain ⟨budget, t, ht, hread⟩ | ⟨-, hnone, -⟩ := uVarA_of_groupsGoOn hs h1 hn (groupsAt_concat hat).1 hgo
  case inr =>
    obtain ⟨c, hc⟩ := hat.exists_first_byte (by simp)
    simp [hc] at hnone
  have hparams := ht.onlyCursor.params
  have hbyte : LogicalByteAt t (bitCursor t) last :=
    (groupsAt_cons_iff.1 (ht.groupsAt (groupsAt_cons (groupsAt_concat hat).2 (groupsAt_nil _ _)))).1
  obtain ⟨d, hd, hraw⟩ := rawByteA_of_logicalByteAt ht.1 hbyte
  have hvalue := uVarALoop_of_not_goesOn (budget := budget) (result := groupsValueA s.params 0 init) hraw
    (hparams.symm ▸ hlast)
  have hidx : (if (bitCursor t + 8) % 8 ≠ 0 then (bitCursor t + 8) / 8 else (bitCursor t + 8) / 8 - 1) =
      (bitCursor t + 7) / 8 := by
    split <;> omega
  rw [groupsValueA_concat, bit_behind_concat, ← ht.bitCursor_eq, hidx, Int.add_emod_right]
  obtain ⟨-, c, v, rfl⟩ := ht
  exact ⟨d, hi.bita_value hm (hread.trans hvalue), hd⟩

theorem exists_byte_behind_marker {s : State} {n : Int} (h1 : streamBit s (bitCursor s) = some true)
    (hn : n = bitCursor s + (if s.params.aConsumeOnNonzero = true then 1 else 0)) (h8 : n % 8 ≠ 0) :
    ∃ c, bufByte s (n / 8) = some c := by
  obtain ⟨c, hc, -⟩ := exists_byte_of_streamBit h1
  have hpos : n / 8 = s.pos := by
    rw [← bitCursor_ediv s]
    split at hn <;> omega
  exact ⟨c, hpos ▸ hc⟩

/-- Settles O43: behind the marker and the groups that go on, the read of the next one is refused, unless the byte
behind the marker already was. -/
theorem bitaRunsOffTheBuffer : Obligations.BitaRunsOffTheBuffer := by
  rintro s i f bs n m hi hm hs h1 hn hat hgo rfl hout
  rw [ite_lastIndex] at hout ⊢
  obtain ⟨budget, t, ht, hread⟩ | ⟨h8, hnone, t, hraise⟩ := uVarA_of_groupsGoOn hs h1 hn hat (groupsGoOn_zero hgo)
  case inl =>
    have hfirst := hat.exists_byte_at_end (exists_byte_behind_marker h1 hn)
    rw [← ht.bitCursor_eq, ← ht.onlyCursor.bufByte] at hfirst hout
    rw [← ht.bitCursor_eq]
    obtain ⟨u, hraw⟩ := rawByteA_of_outside ht.1 hfirst hout
    rw [uVarALoop, hraw, andThen_raised] at hread
    exact ⟨_, _, _, hi.bita_raised hm hread⟩
  case inr =>
    obtain rfl | hne := eq_or_ne bs []
    · have hidx : (n + 8 * (([] : List Byte).length : Int) + 7) / 8 = n / 8 := by
        rw [List.length_nil]
        omega
      rw [hidx]
      exact ⟨_, _, _, hi.bita_raised hm hraise⟩
    · obtain ⟨c, hc⟩ := hat.exists_first_byte hne
      simp [hc] at hnone

/-! ## A run of zero markers (R157) -/

/-- `s` after a `read.uint` of a 0 marker, with `rest` still to come. -/
def State.afterZeroMarker (s : State) (rest : List HostEvent) : State :=
  State.answered ((s.setInbox rest).atBit (bitCursor s + 1)) (some 0)

theorem bitCursor_afterZeroMarker (s : State) (rest : List HostEvent) :
    bitCursor (s.afterZeroMarker rest) = bitCursor s + 1 :=
  bitCursor_atBit s _

theorem step_of_zeroMarker {s : State} {a : Arg} {rest : List HostEvent} (hc : configOk s.params = true)
    (hm : s.mode = .bitb) (hin : s.inbox = .command 0x0004 a :: rest)
    (hzero : streamBit s (bitCursor s) = some false) : step s = .next (s.afterZeroMarker rest) := by
  rw [step_of_decode_ok hc hin (i := .readUint) (decode_eq_ok_iff.2 ⟨rfl, .inl rfl⟩)]
  exact bitbZeroMarkerIsOneBit (s.setInbox rest) .readUint _ .uint hm hzero

/-- Settles O57, by induction on the number of commands: one step reads one marker. -/
theorem zeroMarkersDecodeToZeros : Obligations.ZeroMarkersDecodeToZeros := by
  intro s a n hc hm hin hzero
  unfold runAll
  rw [hin, List.length_replicate]
  induction n generalizing s with
  | zero =>
    have hnil : s.inbox = [] := hin
    rw [Nat.cast_zero, add_zero, atBit_bitCursor_self, List.replicate_zero, List.append_nil, ← hnil]
    rfl
  | succ n ih =>
    have hstep := step_of_zeroMarker hc hm hin (by simpa using hzero 0 (Nat.succ_pos n))
    have hbit (k : Nat) : bitCursor s + 1 + (k : Int) = bitCursor s + ((k + 1 : Nat) : Int) := by omega
    have hrest := ih (s.afterZeroMarker (List.replicate n (.command 0x0004 a))) hc hm rfl fun k hk => by
      rw [bitCursor_afterZeroMarker, hbit]
      exact hzero (k + 1) (Nat.succ_lt_succ hk)
    refine (run_of_step_next hstep n).trans (hrest.trans ?_)
    rw [bitCursor_afterZeroMarker, hbit, List.replicate_succ, List.append_cons]
    rfl

end Sys2Proof.Machine

/-! PROOFS. The statements on faults (spec/60_exceptions.md): what a command that answers FAULT leaves of the registers,
whichever command it is. -/

namespace Sys2Proof.Machine

/-! ## The state a fault is taken in (R171, R172) -/

/-- The reads that every mode admits (R66). -/
abbrev sharedReads : List Instr := [.readUint, .readBool, .readI8]

/-- The reads of two varints (R113, R114). -/
abbrev compoundReads : List Instr := [.readF64, .readI64]

theorem not_mem_sharedReads_of_byteCodecOnly : ∀ i ∈ byteCodecOnly, i ∉ sharedReads := by decide

/-- The states in which command `i`, begun in `s`, may take a fault: the rows of R172's table, with the registers of the
cursor untouched, `POS` behind the first varint of a compound read, or the cursor drawn (R156). -/
inductive FaultState (i : Instr) (s : State) : State → Prop where
  | untouched (h : s.mode = .byte ∨ i ∉ sharedReads) : FaultState i s s
  | moved (p : Int) (hm : s.mode = .byte) (hi : i ∈ compoundReads) : FaultState i s (s.setPos p)
  | drawn (hm : s.mode ≠ .byte) (hi : i ∈ sharedReads) : FaultState i s (drawCursor s)

/-- A piece of pseudocode that raises only where `R` holds of the state it leaves. -/
abbrev Reply.RaisesIn {α : Type} (r : Reply α) (R : State → Prop) : Prop := r.Leaves (fun _ _ => True) R

theorem Reply.RaisesIn.of_eq {α : Type} {r : Reply α} {s : State} {R : State → Prop} (h : r.RaisesIn (· = s))
    (hs : R s) : r.RaisesIn R :=
  h.mono (fun _ _ _ => trivial) fun _ ht => ht.symm ▸ hs

theorem skipBy_raisesIn (n : Int) (s : State) : (skipBy n s).RaisesIn (· = s) := by
  unfold skipBy
  split
  · exact .of_raised rfl
  · exact .of_value trivial

theorem readOne_raisesIn_of_byte {s : State} (hm : s.mode = .byte) (f : U32 → Value) :
    (readOne f s).RaisesIn (· = s) := by
  rw [readOne, readVarint_byte hm]
  exact (u5_leaves s).bind fun _ _ _ => .of_value trivial

/-- The draws overwrite what the decoder wrote before it raised. -/
theorem readOne_raisesIn_of_bit_mode {s : State} (hm : s.mode ≠ .byte) (f : U32 → Value) :
    (readOne f s).RaisesIn (· = drawCursor s) := by
  obtain ⟨r, hread, hr⟩ := readVarint_of_bit_mode hm
  have hdraw : (drawOnRaise r).RaisesIn (· = drawCursor s) := by
    refine ⟨fun _ _ _ => trivial, fun e t h => ?_⟩
    obtain ⟨u, hu, rfl⟩ := drawOnRaise_raised.1 h
    exact (hr.raised e u hu).1.drawCursor_eq
  rw [readOne, hread]
  exact hdraw.bind fun _ _ _ => .of_value trivial

theorem readOne_raisesIn_faultState {i : Instr} (hi : i ∈ sharedReads) (f : U32 → Value) (s : State) :
    (readOne f s).RaisesIn (FaultState i s) := by
  by_cases hm : s.mode = .byte
  · exact (readOne_raisesIn_of_byte hm f).of_eq (.untouched (.inl hm))
  · exact (readOne_raisesIn_of_bit_mode hm f).of_eq (.drawn hm hi)

theorem readTwo_raisesIn_faultState {i : Instr} (hi : i ∈ compoundReads) {s : State} (hm : s.mode = .byte)
    (f : U32 → U32 → Value) : (readTwo f s).RaisesIn (FaultState i s) := by
  refine (readTwo_movesPos hm f).mono (fun _ _ _ => trivial) fun t ht => ?_
  obtain ⟨p, rfl⟩ := ht
  exact .moved p hm hi

/-- The pseudocode of every command that the mode admits raises in a state of R172's table. -/
theorem bodyOf_raisesIn_faultState {i : Instr} {s : State} (hadm : ¬ (s.mode ≠ .byte ∧ i ∈ byteCodecOnly)) :
    (bodyOf i s).RaisesIn (FaultState i s) := by
  cases i with
  | openByte | openBita | openBitb | getpos | setpos => exact .of_value trivial
  | skip a => exact (skipBy_raisesIn _ s).of_eq (.untouched (.inr (by simp)))
  | peek | readByte => exact memRead_bind_leaves (.untouched (.inr (by simp))) fun _ _ => .of_value trivial
  | readUint | readBool | readI8 => exact readOne_raisesIn_faultState (by simp) _ s
  | readSint | readI16 | readChar16 | readF32 =>
    have hm : s.mode = .byte := by simpa [byteCodecOnly] using hadm
    exact (readOne_raisesIn_of_byte hm _).of_eq (.untouched (.inl hm))
  | readF64 | readI64 =>
    have hm : s.mode = .byte := by simpa [byteCodecOnly] using hadm
    exact readTwo_raisesIn_faultState (by simp) hm _

/-- A command that answers FAULT has taken a fault in a state of R172's table. -/
theorem exec_fault_eq_faulted {i : Instr} {s t : State} {code : BitVec 4} (hexec : exec i s = .next t)
    (hfault : t.responses = s.responses ++ [{ status := .fault, cause := code, value := none }]) :
    ∃ u c info, FaultState i s u ∧ t = u.faulted c info := by
  obtain ⟨⟨-, hi⟩, h⟩ | ⟨hadm, h⟩ := exec_cases i s
  · cases hexec.symm.trans h
    exact ⟨s, _, _, .untouched (.inr (not_mem_sharedReads_of_byteCodecOnly i hi)), rfl⟩
  · rw [h] at hexec
    cases hbody : bodyOf i s with
    | value v u =>
      obtain ⟨-, -, -, -, -, -, hresponses⟩ := ((bodyOf_runs i s).value v u hbody).1.fields
      rw [hbody, finish_value] at hexec
      cases hexec
      simp [State.answered, hresponses] at hfault
    | raised e u =>
      rw [hbody, finish_raised] at hexec
      cases hexec
      exact ⟨u, _, _, (bodyOf_raisesIn_faultState hadm).raised e u hbody, rfl⟩
    | stuck f => exact absurd hbody (bodyOf_ends i s f)

/-- Settles O50: taking the fault writes no register of the cursor, so each row of R172's table is read off the state
the fault is taken in. -/
theorem faultLeavesTheRegisters : Obligations.FaultLeavesTheRegisters := by
  intro i s t code hexec hfault
  obtain ⟨u, c, info, hu, rfl⟩ := exec_fault_eq_faulted hexec hfault
  cases hu with
  | untouched h =>
    exact ⟨rfl, fun hm hi => absurd hi (h.resolve_left hm), fun _ => ⟨rfl, rfl, rfl, rfl, fun _ => rfl⟩⟩
  | moved p hm hi =>
    exact ⟨rfl, fun hne => absurd hm hne,
      fun _ => ⟨rfl, rfl, rfl, rfl, fun h => absurd hi (h.resolve_left (not_not.2 hm))⟩⟩
  | drawn hm hi => exact ⟨rfl, fun _ _ => rfl, fun h => absurd hi (h.resolve_left hm)⟩

end Sys2Proof.Machine

/-! PROOFS. The statements on reset and waiting (spec/70_reset_and_hazards.md): the step that finds no event on the port,
and the step that takes a reset. -/

namespace Sys2Proof.Machine

/-- Settles O8: a step whose port is empty waits. -/
theorem noEventChangesNothing : Obligations.NoEventChangesNothing :=
  fun _ hc hin => step_of_no_event hc hin

theorem step_of_reset {s : State} {rest : List HostEvent} (hc : configOk s.params = true)
    (hin : s.inbox = .reset :: rest) : step s = .next (resetEvent (s.setInbox rest)) := by
  simp [step, fetch, hc, hin]

/-- The state after a reset event, field by field (R190). -/
theorem resetEvent_eq (s : State) :
    resetEvent s = { s with
      mode := .byte, pos := 0, bitoff := 0, curb := Config.drawCurb s.draws, curv := false, flt := false, fcause := 0,
      finfo := 0, draws := s.draws + 1 } :=
  rfl

/-- Settles O12: the byte is the draw of `CURB` at the state's own count. -/
theorem resetEventRestoresTheRegisters : Obligations.ResetEventRestoresTheRegisters := by
  intro s rest hc hin
  refine ⟨Config.drawCurb s.draws, ?_⟩
  rw [step_of_reset hc hin, resetEvent_eq]
  rfl

end Sys2Proof.Machine
